-- ==== Sys2Proof/Word.lean ====
section
/-! DEFINITION. The value types of the pyrisc CORE: Word, byte, register number, page number and page offset
(00_scope.md R7, 10_state.md R20, R24, 20_memory.md R52). -/

namespace Sys2Proof

/-- A 32-bit unsigned value; `+` and `-` wrap modulo 2^32 (R7). `toNat` is the spec's `u(v)`, `toInt` its `s(v)`. -/
abbrev Word := BitVec 32

/-- One byte of a page (R54). -/
abbrev Byte := BitVec 8

/-- A register number. The 5-bit type makes an index outside 0..31 unrepresentable in an instruction (R24). -/
abbrev Reg := BitVec 5

/-- A virtual page number, bits 31:12 of an address (R52). -/
abbrev Vpn := BitVec 20

/-- A virtual page offset, bits 11:0 of an address (R52). -/
abbrev Vpo := BitVec 12

end Sys2Proof
end

