-- ==== Sys2Proof/Machine/Flags.lean ====
section
/-! DEFINITION. This hardware has no flags (10_state.md R28): a comparison writes a 0 or 1 Word to a register or
selects a branch target. This file holds those comparisons. -/

namespace Sys2Proof.Machine

/-- `s(a) < s(b)` on the two's-complement values (41_alu.md R141). -/
def lessSigned (a b : Word) : Bool := decide (a.toInt < b.toInt)

/-- `u(a) < u(b)` on the unsigned values (41_alu.md R141). -/
def lessUnsigned (a b : Word) : Bool := decide (a.toNat < b.toNat)

/-- The Word a comparison writes: 1 if it holds, else 0 (41_alu.md R141). -/
def boolWord (c : Bool) : Word := if c then 1 else 0

/-- The six conditions of 43_ctrl.md R193. -/
inductive BranchCond where
  | eq
  | ne
  | lt
  | ge
  | ltu
  | geu
  deriving DecidableEq, Repr

/-- Whether a branch is taken, on the values of `rs1` and `rs2` (43_ctrl.md R193). -/
def BranchCond.holds (c : BranchCond) (a b : Word) : Bool :=
  match c with
  | .eq => decide (a = b)
  | .ne => decide (a ≠ b)
  | .lt => lessSigned a b
  | .ge => !lessSigned a b
  | .ltu => lessUnsigned a b
  | .geu => !lessUnsigned a b

end Sys2Proof.Machine
end

