-- ==== Sys2Proof/Decode.lean ====
section
/-! DEFINITION. The instruction word: fields (30_encoding.md R93), immediates (R96 to R98), the decode table of R100
with the decode procedure of R99, and an encoder written from the formats of R92 and the opcode, funct3 and funct7
columns of R100. Every number here is the spec's, which takes it from general knowledge (log entry 15). -/

namespace Sys2Proof

/-! ### Bit fields and byte order -/

/-- `w[lo+n-1 : lo]` (R7). -/
def bits (w : Word) (lo n : Nat) : BitVec n := w.extractLsb' lo n

/-- The field `x` placed with its bit 0 at bit `lo` of a `w`-bit value whose other bits are 0. -/
def place {n : Nat} (w lo : Nat) (x : BitVec n) : BitVec w := x.setWidth w <<< lo

/-- Four bytes, lowest address first, as a Word: memory is little-endian (20_memory.md R60). -/
def wordOfBytes (b0 b1 b2 b3 : Byte) : Word :=
  place 32 24 b3 ||| place 32 16 b2 ||| place 32 8 b1 ||| place 32 0 b0

/-- Byte `k` of a Word, the byte at offset `k` from its address (20_memory.md R60). -/
def byteOf (w : Word) (k : Nat) : Byte := bits w (8 * k) 8

/-! ### Fields and immediates -/

def opcodeOf (w : Word) : BitVec 7 := bits w 0 7
def rdOf (w : Word) : Reg := bits w 7 5
def funct3Of (w : Word) : BitVec 3 := bits w 12 3
def rs1Of (w : Word) : Reg := bits w 15 5
def rs2Of (w : Word) : Reg := bits w 20 5
def funct7Of (w : Word) : BitVec 7 := bits w 25 7
def shamtOf (w : Word) : BitVec 5 := bits w 20 5

/-- The 12-bit field of `imm_i`, `inst[31:20]` (R96). -/
def immI (w : Word) : BitVec 12 := bits w 20 12

/-- The 12-bit field of `imm_s`, `{inst[31:25], inst[11:7]}` (R96). -/
def immS (w : Word) : BitVec 12 := place 12 5 (bits w 25 7) ||| place 12 0 (bits w 7 5)

/-- The 13 bits of `imm_b`, `{inst[31], inst[7], inst[30:25], inst[11:8], 0}` (R97). -/
def immB (w : Word) : BitVec 13 :=
  place 13 12 (bits w 31 1) ||| place 13 11 (bits w 7 1) ||| place 13 5 (bits w 25 6) ||| place 13 1 (bits w 8 4)

/-- The 20-bit field of `imm_u`, `inst[31:12]` (R98). -/
def immU (w : Word) : BitVec 20 := bits w 12 20

/-- The 21 bits of `imm_j`, `{inst[31], inst[19:12], inst[20], inst[30:21], 0}` (R97). -/
def immJ (w : Word) : BitVec 21 :=
  place 21 20 (bits w 31 1) ||| place 21 12 (bits w 12 8) ||| place 21 11 (bits w 20 1) ||| place 21 1 (bits w 21 10)

/-! ### The decode table (R100) -/

/-- One row of R100: the word `w` is this instruction when `w &&& mask = value`, with the operands `read w`. -/
structure Row where
  mnemonic : String
  mask : Word
  value : Word
  read : Word → Instr

def rowLui : Row := ⟨"LUI", 0x0000007F, 0x00000037, fun w => .lui (rdOf w) (immU w)⟩
def rowAuipc : Row := ⟨"AUIPC", 0x0000007F, 0x00000017, fun w => .auipc (rdOf w) (immU w)⟩
def rowJal : Row := ⟨"JAL", 0x0000007F, 0x0000006F, fun w => .jal (rdOf w) (immJ w)⟩
def rowJalr : Row := ⟨"JALR", 0x0000707F, 0x00000067, fun w => .jalr (rdOf w) (rs1Of w) (immI w)⟩
def rowBeq : Row := ⟨"BEQ", 0x0000707F, 0x00000063, fun w => .beq (rs1Of w) (rs2Of w) (immB w)⟩
def rowBne : Row := ⟨"BNE", 0x0000707F, 0x00001063, fun w => .bne (rs1Of w) (rs2Of w) (immB w)⟩
def rowBlt : Row := ⟨"BLT", 0x0000707F, 0x00004063, fun w => .blt (rs1Of w) (rs2Of w) (immB w)⟩
def rowBge : Row := ⟨"BGE", 0x0000707F, 0x00005063, fun w => .bge (rs1Of w) (rs2Of w) (immB w)⟩
def rowBltu : Row := ⟨"BLTU", 0x0000707F, 0x00006063, fun w => .bltu (rs1Of w) (rs2Of w) (immB w)⟩
def rowBgeu : Row := ⟨"BGEU", 0x0000707F, 0x00007063, fun w => .bgeu (rs1Of w) (rs2Of w) (immB w)⟩
def rowLb : Row := ⟨"LB", 0x0000707F, 0x00000003, fun w => .lb (rdOf w) (rs1Of w) (immI w)⟩
def rowLh : Row := ⟨"LH", 0x0000707F, 0x00001003, fun w => .lh (rdOf w) (rs1Of w) (immI w)⟩
def rowLw : Row := ⟨"LW", 0x0000707F, 0x00002003, fun w => .lw (rdOf w) (rs1Of w) (immI w)⟩
def rowLbu : Row := ⟨"LBU", 0x0000707F, 0x00004003, fun w => .lbu (rdOf w) (rs1Of w) (immI w)⟩
def rowLhu : Row := ⟨"LHU", 0x0000707F, 0x00005003, fun w => .lhu (rdOf w) (rs1Of w) (immI w)⟩
def rowSb : Row := ⟨"SB", 0x0000707F, 0x00000023, fun w => .sb (rs2Of w) (rs1Of w) (immS w)⟩
def rowSh : Row := ⟨"SH", 0x0000707F, 0x00001023, fun w => .sh (rs2Of w) (rs1Of w) (immS w)⟩
def rowSw : Row := ⟨"SW", 0x0000707F, 0x00002023, fun w => .sw (rs2Of w) (rs1Of w) (immS w)⟩
def rowAddi : Row := ⟨"ADDI", 0x0000707F, 0x00000013, fun w => .addi (rdOf w) (rs1Of w) (immI w)⟩
def rowSlti : Row := ⟨"SLTI", 0x0000707F, 0x00002013, fun w => .slti (rdOf w) (rs1Of w) (immI w)⟩
def rowSltiu : Row := ⟨"SLTIU", 0x0000707F, 0x00003013, fun w => .sltiu (rdOf w) (rs1Of w) (immI w)⟩
def rowXori : Row := ⟨"XORI", 0x0000707F, 0x00004013, fun w => .xori (rdOf w) (rs1Of w) (immI w)⟩
def rowOri : Row := ⟨"ORI", 0x0000707F, 0x00006013, fun w => .ori (rdOf w) (rs1Of w) (immI w)⟩
def rowAndi : Row := ⟨"ANDI", 0x0000707F, 0x00007013, fun w => .andi (rdOf w) (rs1Of w) (immI w)⟩
def rowSlli : Row := ⟨"SLLI", 0xFE00707F, 0x00001013, fun w => .slli (rdOf w) (rs1Of w) (shamtOf w)⟩
def rowSrli : Row := ⟨"SRLI", 0xFE00707F, 0x00005013, fun w => .srli (rdOf w) (rs1Of w) (shamtOf w)⟩
def rowSrai : Row := ⟨"SRAI", 0xFE00707F, 0x40005013, fun w => .srai (rdOf w) (rs1Of w) (shamtOf w)⟩
def rowAdd : Row := ⟨"ADD", 0xFE00707F, 0x00000033, fun w => .add (rdOf w) (rs1Of w) (rs2Of w)⟩
def rowSub : Row := ⟨"SUB", 0xFE00707F, 0x40000033, fun w => .sub (rdOf w) (rs1Of w) (rs2Of w)⟩
def rowSll : Row := ⟨"SLL", 0xFE00707F, 0x00001033, fun w => .sll (rdOf w) (rs1Of w) (rs2Of w)⟩
def rowSlt : Row := ⟨"SLT", 0xFE00707F, 0x00002033, fun w => .slt (rdOf w) (rs1Of w) (rs2Of w)⟩
def rowSltu : Row := ⟨"SLTU", 0xFE00707F, 0x00003033, fun w => .sltu (rdOf w) (rs1Of w) (rs2Of w)⟩
def rowXor : Row := ⟨"XOR", 0xFE00707F, 0x00004033, fun w => .xor (rdOf w) (rs1Of w) (rs2Of w)⟩
def rowSrl : Row := ⟨"SRL", 0xFE00707F, 0x00005033, fun w => .srl (rdOf w) (rs1Of w) (rs2Of w)⟩
def rowSra : Row := ⟨"SRA", 0xFE00707F, 0x40005033, fun w => .sra (rdOf w) (rs1Of w) (rs2Of w)⟩
def rowOr : Row := ⟨"OR", 0xFE00707F, 0x00006033, fun w => .or (rdOf w) (rs1Of w) (rs2Of w)⟩
def rowAnd : Row := ⟨"AND", 0xFE00707F, 0x00007033, fun w => .and (rdOf w) (rs1Of w) (rs2Of w)⟩
def rowEcall : Row := ⟨"ECALL", 0xFFFFFFFF, 0x00000073, fun _ => .ecall⟩
def rowEbreak : Row := ⟨"EBREAK", 0xFFFFFFFF, 0x00100073, fun _ => .ebreak⟩

def ctrlRows : List Row := [rowJal, rowJalr, rowBeq, rowBne, rowBlt, rowBge, rowBltu, rowBgeu, rowEcall, rowEbreak]
def memRows : List Row := [rowLb, rowLh, rowLw, rowLbu, rowLhu, rowSb, rowSh, rowSw]
def aluImmRows : List Row :=
  [rowLui, rowAuipc, rowAddi, rowSlti, rowSltiu, rowXori, rowOri, rowAndi, rowSlli, rowSrli, rowSrai]
def aluRegRows : List Row := [rowAdd, rowSub, rowSll, rowSlt, rowSltu, rowXor, rowSrl, rowSra, rowOr, rowAnd]

/-- The 39 rows of R100. Their order does not matter: their patterns are pairwise disjoint (R99). -/
def table : List Row := aluImmRows ++ aluRegRows ++ memRows ++ ctrlRows

/-- Why the decoder gives no instruction. -/
inductive Reject where
  /-- Fewer than the four bytes of an instruction word were given (R90). -/
  | truncated
  /-- The word matches no row: the sentinel 'illegal' class (R99, R103). -/
  | illegal
  deriving DecidableEq, Repr

def Row.matches (r : Row) (w : Word) : Bool := w &&& r.mask == r.value

/-- The decode procedure of R99: the row with `(inst & mask) = match`, or ILLEGAL. -/
def decodeWord (w : Word) : Except Reject Instr :=
  match table.find? (fun r => r.matches w) with
  | some r => .ok (r.read w)
  | none => .error .illegal

/-- The decoder on any bytes, lowest address first: the instruction they begin with and the bytes after it. -/
def decodeBytes : List Byte → Except Reject (Instr × List Byte)
  | b0 :: b1 :: b2 :: b3 :: rest =>
    match decodeWord (wordOfBytes b0 b1 b2 b3) with
    | .ok i => .ok (i, rest)
    | .error e => .error e
  | _ => .error .truncated

/-! ### The encoder -/

def rFormat (funct7 : BitVec 7) (rs2 rs1 : Reg) (funct3 : BitVec 3) (rd : Reg) (opcode : BitVec 7) : Word :=
  place 32 25 funct7 ||| place 32 20 rs2 ||| place 32 15 rs1 ||| place 32 12 funct3 ||| place 32 7 rd |||
    place 32 0 opcode

def iFormat (imm : BitVec 12) (rs1 : Reg) (funct3 : BitVec 3) (rd : Reg) (opcode : BitVec 7) : Word :=
  place 32 20 imm ||| place 32 15 rs1 ||| place 32 12 funct3 ||| place 32 7 rd ||| place 32 0 opcode

def sFormat (imm : BitVec 12) (rs2 rs1 : Reg) (funct3 : BitVec 3) (opcode : BitVec 7) : Word :=
  place 32 25 (imm.extractLsb' 5 7) ||| place 32 20 rs2 ||| place 32 15 rs1 ||| place 32 12 funct3 |||
    place 32 7 (imm.extractLsb' 0 5) ||| place 32 0 opcode

def bFormat (off : BitVec 13) (rs2 rs1 : Reg) (funct3 : BitVec 3) (opcode : BitVec 7) : Word :=
  place 32 31 (off.extractLsb' 12 1) ||| place 32 25 (off.extractLsb' 5 6) ||| place 32 20 rs2 ||| place 32 15 rs1 |||
    place 32 12 funct3 ||| place 32 8 (off.extractLsb' 1 4) ||| place 32 7 (off.extractLsb' 11 1) ||| place 32 0 opcode

def uFormat (imm : BitVec 20) (rd : Reg) (opcode : BitVec 7) : Word :=
  place 32 12 imm ||| place 32 7 rd ||| place 32 0 opcode

def jFormat (off : BitVec 21) (rd : Reg) (opcode : BitVec 7) : Word :=
  place 32 31 (off.extractLsb' 20 1) ||| place 32 21 (off.extractLsb' 1 10) ||| place 32 20 (off.extractLsb' 11 1) |||
    place 32 12 (off.extractLsb' 12 8) ||| place 32 7 rd ||| place 32 0 opcode

/-- The word of an instruction: its format (R92) with the opcode, funct3 and funct7 of its row (R100). -/
def encode : Instr → Word
  | .lui rd imm => uFormat imm rd 0b0110111
  | .auipc rd imm => uFormat imm rd 0b0010111
  | .jal rd off => jFormat off rd 0b1101111
  | .jalr rd rs1 imm => iFormat imm rs1 0b000 rd 0b1100111
  | .beq rs1 rs2 off => bFormat off rs2 rs1 0b000 0b1100011
  | .bne rs1 rs2 off => bFormat off rs2 rs1 0b001 0b1100011
  | .blt rs1 rs2 off => bFormat off rs2 rs1 0b100 0b1100011
  | .bge rs1 rs2 off => bFormat off rs2 rs1 0b101 0b1100011
  | .bltu rs1 rs2 off => bFormat off rs2 rs1 0b110 0b1100011
  | .bgeu rs1 rs2 off => bFormat off rs2 rs1 0b111 0b1100011
  | .lb rd rs1 imm => iFormat imm rs1 0b000 rd 0b0000011
  | .lh rd rs1 imm => iFormat imm rs1 0b001 rd 0b0000011
  | .lw rd rs1 imm => iFormat imm rs1 0b010 rd 0b0000011
  | .lbu rd rs1 imm => iFormat imm rs1 0b100 rd 0b0000011
  | .lhu rd rs1 imm => iFormat imm rs1 0b101 rd 0b0000011
  | .sb rs2 rs1 imm => sFormat imm rs2 rs1 0b000 0b0100011
  | .sh rs2 rs1 imm => sFormat imm rs2 rs1 0b001 0b0100011
  | .sw rs2 rs1 imm => sFormat imm rs2 rs1 0b010 0b0100011
  | .addi rd rs1 imm => iFormat imm rs1 0b000 rd 0b0010011
  | .slti rd rs1 imm => iFormat imm rs1 0b010 rd 0b0010011
  | .sltiu rd rs1 imm => iFormat imm rs1 0b011 rd 0b0010011
  | .xori rd rs1 imm => iFormat imm rs1 0b100 rd 0b0010011
  | .ori rd rs1 imm => iFormat imm rs1 0b110 rd 0b0010011
  | .andi rd rs1 imm => iFormat imm rs1 0b111 rd 0b0010011
  | .slli rd rs1 shamt => rFormat 0b0000000 shamt rs1 0b001 rd 0b0010011
  | .srli rd rs1 shamt => rFormat 0b0000000 shamt rs1 0b101 rd 0b0010011
  | .srai rd rs1 shamt => rFormat 0b0100000 shamt rs1 0b101 rd 0b0010011
  | .add rd rs1 rs2 => rFormat 0b0000000 rs2 rs1 0b000 rd 0b0110011
  | .sub rd rs1 rs2 => rFormat 0b0100000 rs2 rs1 0b000 rd 0b0110011
  | .sll rd rs1 rs2 => rFormat 0b0000000 rs2 rs1 0b001 rd 0b0110011
  | .slt rd rs1 rs2 => rFormat 0b0000000 rs2 rs1 0b010 rd 0b0110011
  | .sltu rd rs1 rs2 => rFormat 0b0000000 rs2 rs1 0b011 rd 0b0110011
  | .xor rd rs1 rs2 => rFormat 0b0000000 rs2 rs1 0b100 rd 0b0110011
  | .srl rd rs1 rs2 => rFormat 0b0000000 rs2 rs1 0b101 rd 0b0110011
  | .sra rd rs1 rs2 => rFormat 0b0100000 rs2 rs1 0b101 rd 0b0110011
  | .or rd rs1 rs2 => rFormat 0b0000000 rs2 rs1 0b110 rd 0b0110011
  | .and rd rs1 rs2 => rFormat 0b0000000 rs2 rs1 0b111 rd 0b0110011
  | .ecall => iFormat 0 0 0b000 0 0b1110011
  | .ebreak => iFormat 1 0 0b000 0 0b1110011

/-- The bytes of a Word, lowest address first (20_memory.md R60). -/
def bytesOfWord (w : Word) : List Byte := [byteOf w 0, byteOf w 1, byteOf w 2, byteOf w 3]

/-- The instruction the decoder reads from an instruction of `nbits` bits numbered as spec/opcode_table.json numbers
them, the bits above `nbits` 0: its four bytes as memory holds them, given to the decoder. -/
def decodeTableWord (nbits w : Nat) : Option Instr :=
  match decodeBytes (bytesOfWord (BitVec.ofNat 32 (w % 2 ^ nbits))) with
  | .ok (i, _) => some i
  | .error _ => none

/-- The row of R100 that stands for an instruction. -/
def Instr.row : Instr → Row
  | .lui _ _ => rowLui
  | .auipc _ _ => rowAuipc
  | .jal _ _ => rowJal
  | .jalr _ _ _ => rowJalr
  | .beq _ _ _ => rowBeq
  | .bne _ _ _ => rowBne
  | .blt _ _ _ => rowBlt
  | .bge _ _ _ => rowBge
  | .bltu _ _ _ => rowBltu
  | .bgeu _ _ _ => rowBgeu
  | .lb _ _ _ => rowLb
  | .lh _ _ _ => rowLh
  | .lw _ _ _ => rowLw
  | .lbu _ _ _ => rowLbu
  | .lhu _ _ _ => rowLhu
  | .sb _ _ _ => rowSb
  | .sh _ _ _ => rowSh
  | .sw _ _ _ => rowSw
  | .addi _ _ _ => rowAddi
  | .slti _ _ _ => rowSlti
  | .sltiu _ _ _ => rowSltiu
  | .xori _ _ _ => rowXori
  | .ori _ _ _ => rowOri
  | .andi _ _ _ => rowAndi
  | .slli _ _ _ => rowSlli
  | .srli _ _ _ => rowSrli
  | .srai _ _ _ => rowSrai
  | .add _ _ _ => rowAdd
  | .sub _ _ _ => rowSub
  | .sll _ _ _ => rowSll
  | .slt _ _ _ => rowSlt
  | .sltu _ _ _ => rowSltu
  | .xor _ _ _ => rowXor
  | .srl _ _ _ => rowSrl
  | .sra _ _ _ => rowSra
  | .or _ _ _ => rowOr
  | .and _ _ _ => rowAnd
  | .ecall => rowEcall
  | .ebreak => rowEbreak

end Sys2Proof
end

