-- ==== Sys2Proof/Config.lean ====
section
/-! DEFINITION. The parameters an engine is built with (00_scope.md R6; 92_eei_decisions.md "The open parameters in
one place"). They are plain data that State carries unchanged, so a statement about every state is a statement about
every setting of them. -/

namespace Sys2Proof

/-- CLOCK_FIRE: the comparison of the clock counter with PERIOD (R6, R223, conflict C1). -/
inductive ClockFire where
  | exceeds   -- counter > PERIOD, the default
  | reaches   -- counter >= PERIOD, the alternative of D13
  deriving DecidableEq, Repr

/-- The three named parameters of R6. -/
structure Config where
  /-- PERIOD, "a natural number fixed when the engine is built", 0 allowed (R6, R222). -/
  period : Nat
  /-- CLOCK_FIRE (R6). -/
  clockFire : ClockFire
  /-- SH_MASK16: whether SH masks its source to 16 bits before the merge (R6, R179). -/
  shMask16 : Bool
  deriving DecidableEq, Repr

/-- The parameters of the model's reset engine: CLOCK_FIRE and SH_MASK16 at the defaults R6 gives.
DESIGN CHOICE (log entry 3): PERIOD = 500, the source's example; no value of PERIOD is normative. -/
def Config.default : Config :=
  { period := 500, clockFire := .exceeds, shMask16 := false }

end Sys2Proof
end

