-- ==== Sys2Proof/Machine/State.lean ====
section
/-! DEFINITION. What the machine holds (10_state.md), the events it returns (60_exceptions.md R210), what the host may
do between runs (R231), why a step can stop, and the state right after reset (R38, R250). -/

namespace Sys2Proof.Machine

/-- The permission tag of a page-table entry: exactly two values (20_memory.md R54, R55). -/
inductive Perm where
  | readOnly
  | readWrite
  deriving DecidableEq, Repr

/-- The tags of the mapped pages, by virtual page number, in strictly rising order. A page that is not listed is
absent, "a legal, expected state" (20_memory.md R53, R54). -/
abbrev PageTable := List (Vpn × Perm)

/-- The bytes of the mapped pages, by address, in one canonical form (`Memory.wf` in Ops.lean). -/
abbrev Memory := List Host.Cell

/-- The closed event set of R210. The memory-fault events carry (faultAddress, faultPC) (R217). -/
inductive Event where
  | none
  | illegalInstruction
  | ebreak
  | ecall
  | clock
  | pageFaultMiss (faultAddress faultPC : Word)
  | pageFaultPerms (faultAddress faultPC : Word)
  deriving DecidableEq, Repr

/-- What the host may do between runs (R231). Reading is not listed: it changes nothing. -/
inductive HostMove where
  /-- Call `run(entry)` (R223, R229, R251). -/
  | run (entry : Word)
  /-- Call `write(regno, value)` of the register file; the host may pass any number (R23, R24). -/
  | writeReg (regno : Nat) (value : Word)
  /-- Write `pc` through its accessor (R26). -/
  | writePc (value : Word)
  /-- Insert or replace the entry of a page: its tag and its 4096 bytes, `bytes` from offset 0 and 0 after them. -/
  | insertPage (vpn : Vpn) (perm : Perm) (bytes : List Byte)
  /-- Remove the entry of a page. -/
  | removePage (vpn : Vpn)
  /-- Change the tag of an entry. -/
  | setPerm (vpn : Vpn) (perm : Perm)
  /-- Write one byte of a mapped page, whatever its tag. -/
  | writeByte (address : Word) (value : Byte)
  deriving DecidableEq, Repr

/-- The machine. The first six fields are the spec's own state with the parameters it is built with; `event`,
`running` and `host` are the model's own (log entries 5, 6, 7). `x0` has no storage (10_state.md R22, R23). -/
structure State where
  /-- x1 .. x31: register `i` stands at index `i - 1` (10_state.md R20). -/
  regs : Vector Word 31
  /-- The program counter (10_state.md R26). -/
  pc : Word
  /-- PERIOD, CLOCK_FIRE and SH_MASK16, fixed when the engine is built (00_scope.md R6, 10_state.md R30). -/
  config : Config
  /-- Clock.counter (10_state.md R30). -/
  counter : Nat
  /-- The global cycle counter (10_state.md R31). -/
  cycles : Nat
  /-- The page table's tags (10_state.md R34, 20_memory.md R53, R54). -/
  pages : PageTable
  /-- The page table's bytes (10_state.md R34, 20_memory.md R54). -/
  mem : Memory
  /-- The event the latest engine step, or the run it ended, returned. Not the engine's state (R36). -/
  event : Event
  /-- Whether a run is in progress (R71, R223). -/
  running : Bool
  /-- What the host will do, in order, while no run is in progress (R231). -/
  host : List HostMove
  deriving DecidableEq, Repr

/-- A step never ends in a fault: every condition the hardware reports is an event, which is a next state (R210,
R218), and every condition without meaning is a refusal. No constructor, so nothing can raise one: safe
(log entry 10). -/
inductive Fault where
  deriving DecidableEq, Repr

inductive Refusal where
  /-- Raised by `exec` alone, for an instruction that has no meaning yet. Safe: the machine stops. -/
  | notModelled (mnemonic : String)
  /-- Raised by instruction fetch, LW and SW at an address whose low 12 bits exceed 0xFFC on a mapped page: "a model
  must refuse it" (20_memory.md R66). Safe: the machine stops. -/
  | wordPastPageEnd
  /-- Raised by the host's register accessor with a number above 31: "a refusal (the model has no meaning for it),
  never a value" (10_state.md R24). Safe: the machine stops. -/
  | registerIndexOutOfRange
  /-- Raised by a host move that changes the tag or a byte of a page that has no entry (log entry 11). Safe: the
  machine stops. -/
  | hostNoSuchPage
  deriving DecidableEq, Repr

/-- What a step, an instruction or a host move answers. -/
abbrev Answer := Host.Outcome State Fault Refusal

/-- An engine that has just been built with parameters `c` and has not yet run (R38, R250): counters 0, no run in
progress. DESIGN CHOICE: x1..x31 are 0 (log entry 1) and pc is 0 (log entry 2), where R38 leaves them unspecified; no
page is mapped and the host has no move to make (log entries 4, 7). -/
def State.built (c : Config) : State :=
  { regs := Vector.replicate 31 0, pc := 0, config := c, counter := 0, cycles := 0, pages := [], mem := [],
    event := .none, running := false, host := [] }

/-- The machine right after reset: an engine built with the default parameters (log entry 3). -/
def State.reset : State := State.built Config.default

end Sys2Proof.Machine
end

