-- ==== Sys2Proof/Machine/Ops.lean ====
section
/-! DEFINITION. The named operations over registers, pages and memory; the MMU (20_memory.md R61 to R66); raising an
event, which is this hardware's trap entry (60_exceptions.md R228), and starting a run, its trap return (R229); the
clock (R223). -/

namespace Sys2Proof.Machine

/-! ### Registers (10_state.md R22 to R24) -/

theorem Reg.index_lt (r : Reg) : r.toNat - 1 < 31 := by
  have := r.isLt
  omega

/-- `read(regno)`: x0 is 0, any other register its stored value (R22). -/
def State.readReg (s : State) (r : Reg) : Word :=
  if r = 0 then 0 else s.regs[r.toNat - 1]'(Reg.index_lt r)

/-- `write(regno, value)`: x0 is not written, any other register stores the value (R23). -/
def State.writeReg (s : State) (r : Reg) (v : Word) : State :=
  if r = 0 then s else { s with regs := s.regs.set (r.toNat - 1) v (Reg.index_lt r) }

/-- The host's `read(regno)` with any number: `none` is the fatal internal fault of R22. -/
def State.readRegNo (s : State) (n : Nat) : Option Word :=
  if n < 32 then some (s.readReg (BitVec.ofNat 5 n)) else none

/-- The host's `write(regno, value)` with any number: `none` is the fatal internal fault of R23. -/
def State.writeRegNo (s : State) (n : Nat) (v : Word) : Option State :=
  if n < 32 then some (s.writeReg (BitVec.ofNat 5 n) v) else none

/-! ### Addresses (20_memory.md R52) -/

def vpnOf (a : Word) : Vpn := bits a 12 20
def vpoOf (a : Word) : Vpo := bits a 0 12

/-- The first address of a page. -/
def pageBase (v : Vpn) : Nat := 4096 * v.toNat

/-! ### The page table (20_memory.md R53, R54, R57) -/

/-- Strictly rising by virtual page number: one entry a page, one list a table. -/
abbrev PageTable.wf (t : PageTable) : Prop := t.Pairwise (fun p q => p.1.toNat < q.1.toNat)

/-- `translate(vpn)`: a "pure lookup; absence is a normal outcome" (R53). -/
def translate : PageTable → Vpn → Option Perm
  | [], _ => none
  | (v, p) :: t, vpn => if v = vpn then some p else translate t vpn

/-- The table with the entry of `vpn` inserted or replaced. -/
def PageTable.insert : PageTable → Vpn → Perm → PageTable
  | [], vpn, perm => [(vpn, perm)]
  | (v, p) :: t, vpn, perm =>
    if vpn.toNat < v.toNat then (vpn, perm) :: (v, p) :: t
    else if v = vpn then (vpn, perm) :: t
    else (v, p) :: PageTable.insert t vpn perm

/-- The table without the entry of `vpn`. -/
def PageTable.remove (t : PageTable) (vpn : Vpn) : PageTable := t.filter (fun e => e.1 != vpn)

/-! ### Bytes -/

/-- What a byte reads as that the memory does not list. DESIGN CHOICE (log entry 4). -/
def unlistedByte : Byte := 0

/-- The canonical form of a memory: addresses strictly rising and below 2^32, no entry equal to what an unlisted
address reads as. -/
abbrev Memory.wf (m : Memory) : Prop :=
  m.Pairwise (fun c d => c.1 < d.1) ∧ ∀ c ∈ m, c.1 < 2 ^ 32 ∧ c.2 ≠ unlistedByte

/-- The byte at an address. -/
def Memory.read : Memory → Nat → Byte
  | [], _ => unlistedByte
  | (k, v) :: m, a => if k = a then v else Memory.read m a

/-- The memory with one byte written; writing what an unlisted address reads as removes the entry. -/
def Memory.write : Memory → Nat → Byte → Memory
  | [], a, b => if b = unlistedByte then [] else [(a, b)]
  | (k, v) :: m, a, b =>
    if a < k then (if b = unlistedByte then (k, v) :: m else (a, b) :: (k, v) :: m)
    else if k = a then (if b = unlistedByte then m else (a, b) :: m)
    else (k, v) :: Memory.write m a b

/-- Bytes written one after the other from an address up. -/
def Memory.writeBytes : Memory → Nat → List Byte → Memory
  | m, _, [] => m
  | m, a, b :: bs => Memory.writeBytes (m.write a b) (a + 1) bs

/-- The memory without the bytes of a page. -/
def Memory.clearPage (m : Memory) (v : Vpn) : Memory :=
  m.filter (fun c => decide (c.1 / 4096 ≠ v.toNat))

/-- The Word at an address, little-endian (R60). -/
def Memory.readWord (m : Memory) (a : Nat) : Word :=
  wordOfBytes (m.read a) (m.read (a + 1)) (m.read (a + 2)) (m.read (a + 3))

/-- The memory with a Word written, little-endian (R60). -/
def Memory.writeWord (m : Memory) (a : Nat) (w : Word) : Memory := m.writeBytes a (bytesOfWord w)

/-- The byte at a virtual address, where its page is mapped (R54: "all 4096 bytes of its page exist and have
values"). -/
def State.byteAt (s : State) (a : Word) : Option Byte :=
  (translate s.pages (vpnOf a)).map (fun _ => s.mem.read a.toNat)

/-! ### The MMU (20_memory.md R61 to R66) -/

/-- The function argument of `memAccess`, two-valued (R64). -/
inductive MemFunction where
  | read
  | write
  deriving DecidableEq, Repr

/-- The exception kinds `memAccess` can return beside None (R61, R64). -/
inductive MmuFault where
  | pageFaultMiss
  | pageFaultPerms
  deriving DecidableEq, Repr

/-- What an MMU operation gives: a value, an exception, or no meaning (R66). -/
inductive MmuResult (α : Type) where
  | done (x : α)
  | fault (k : MmuFault)
  | noMeaning
  deriving DecidableEq, Repr

def MmuResult.map {α β : Type} (f : α → β) : MmuResult α → MmuResult β
  | .done x => .done (f x)
  | .fault k => .fault k
  | .noMeaning => .noMeaning

/-- Four bytes from page offset `vpo` would run past the end of the page (R66). -/
def pastPageEnd (a : Word) : Bool := decide (0xFFC < (vpoOf a).toNat)

/-- `memAccess(a, data, function)`: the miss test, then the permission test, then the bytes (R61); a mapped page with
`vpo > 0xFFC` has no meaning (R66). The result holds the Word read (0 for a Write) and the memory after. -/
def memAccess (s : State) (a data : Word) : MemFunction → MmuResult (Word × State)
  | .read =>
    match translate s.pages (vpnOf a) with
    | none => .fault .pageFaultMiss
    | some _ => if pastPageEnd a then .noMeaning else .done (s.mem.readWord a.toNat, s)
  | .write =>
    match translate s.pages (vpnOf a) with
    | none => .fault .pageFaultMiss
    | some .readOnly => .fault .pageFaultPerms
    | some .readWrite =>
      if pastPageEnd a then .noMeaning else .done (0, { s with mem := s.mem.writeWord a.toNat data })

/-- `MemRead(a, 4)` (R62). -/
def memRead (s : State) (a : Word) : MmuResult Word := (memAccess s a 0 .read).map (·.1)

/-- `MemWrite(a, 4, v)` (R63). -/
def memWrite (s : State) (a v : Word) : MmuResult State := (memAccess s a v .write).map (·.2)

/-! ### Events: trap entry and trap return (60_exceptions.md R228, R229) -/

/-- `raise E`: the step ends with event `E`. Nothing is saved and nothing else changes; `pc`, the registers and memory
stay as they are (R218, R228). -/
def State.raise (s : State) (e : Event) : State := { s with event := e }

/-- `pc <- t ; event <- None`: the instruction has completed and the next one is at `t`. -/
def State.jump (s : State) (t : Word) : State := { s with pc := t, event := .none }

/-- `pc <- pc + 4 ; event <- None`. -/
def State.finish (s : State) : State := s.jump (s.pc + 4)

/-- The memory-fault event of an MMU exception (R210, R217). -/
def MmuFault.event (k : MmuFault) (faultAddress faultPC : Word) : Event :=
  match k with
  | .pageFaultMiss => .pageFaultMiss faultAddress faultPC
  | .pageFaultPerms => .pageFaultPerms faultAddress faultPC

/-- What follows an MMU operation made at state `s` for the address `fa`: on success the rest of the handler; on an
exception the step ends with the memory-fault event `(fa, pc)` and no other change (42_mem.md R182, 40_step.md R131);
without meaning the model refuses (R66). -/
def afterMmu {α : Type} (r : MmuResult α) (s : State) (fa : Word) (rest : α → Answer) : Answer :=
  match r with
  | .done x => rest x
  | .fault k => .next (s.raise (k.event fa s.pc))
  | .noMeaning => .refused .wordPastPageEnd

/-- The start of `run(entry)`: `pc <- entry`, a run is in progress, and the event of the run before is gone (R223,
R229, R36). This is also the only trap return there is: nothing was saved, so nothing is restored. -/
def State.startRun (s : State) (entry : Word) : State :=
  { s with pc := entry, event := .none, running := true }

/-! ### The clock (60_exceptions.md R222 to R225) -/

/-- Whether the clock fires at a counter value, by the parameter CLOCK_FIRE (R6, R223). -/
def Config.fires (c : Config) (counter : Nat) : Bool :=
  match c.clockFire with
  | .exceeds => decide (c.period < counter)
  | .reaches => decide (c.period ≤ counter)

/-- What the run loop does after a step has returned its event (R223): both counters go up by one; when the clock
fires the counter goes to 0 and the run returns Clock in place of the step's event (R224); otherwise an event other
than None ends the run. -/
def State.afterStep (s : State) : State :=
  if Config.fires s.config (s.counter + 1) then
    { s with cycles := s.cycles + 1, counter := 0, event := .clock, running := false }
  else
    { s with cycles := s.cycles + 1, counter := s.counter + 1, running := s.running && decide (s.event = .none) }

/-! ### Placing an instruction for the next fetch (log entry 8) -/

/-- Where a word can be placed so that the next fetch reads it: `pc`, or the word-aligned address below it where four
bytes from `pc` do not fit in the page. -/
def fetchSlot (pc : Word) : Word := if pastPageEnd pc then pc &&& 0xFFFFFFFC else pc

/-- The state with the word `w` where the next step fetches, a run in progress and the page of `pc` mapped (ReadWrite
where it was absent, its tag kept where it was mapped). -/
def State.placeForFetch (s : State) (w : Word) : State :=
  let a := fetchSlot s.pc
  { s with
    pc := a
    pages := match translate s.pages (vpnOf a) with
      | none => PageTable.insert s.pages (vpnOf a) .readWrite
      | some _ => s.pages
    mem := s.mem.writeWord a.toNat w
    running := true }

end Sys2Proof.Machine
end

