-- ==== Sys2Proof/Machine/Operands.lean ====
section
/-! DEFINITION. Operand forms: the ALU's operand sources and the control signals (30_encoding.md R101, 41_alu.md R140),
the addressing mode (42_mem.md R170), the containing word (R171), jump and branch targets (43_ctrl.md R190). -/

namespace Sys2Proof.Machine

/-! ### ALU operands (R101, R140) -/

/-- The ten ALU operations (R141). -/
inductive AluOp where
  | add
  | sub
  | and
  | or
  | xor
  | slt
  | sltu
  | sll
  | sra
  | srl
  deriving DecidableEq, Repr

/-- Operand 1: rs1, the PC, or for LUI the constant 0 (R101; decision D4, log entry 17). -/
inductive Operand1 where
  | rs1 (r : Reg)
  | pc
  | zero
  deriving DecidableEq, Repr

/-- Operand 2: rs2, the I-immediate or the U-immediate (R101). -/
inductive Operand2 where
  | rs2 (r : Reg)
  | immI (imm : BitVec 12)
  | immU (imm : BitVec 20)
  deriving DecidableEq, Repr

def Operand1.value (o : Operand1) (s : State) : Word :=
  match o with
  | .rs1 r => s.readReg r
  | .pc => s.pc
  | .zero => 0

/-- `imm_i` is sign-extended for every instruction that uses it (R96); `imm_u` stands in bits 31:12 (R98). -/
def Operand2.value (o : Operand2) (s : State) : Word :=
  match o with
  | .rs2 r => s.readReg r
  | .immI imm => imm.signExtend 32
  | .immU imm => place 32 12 imm

/-- The I-immediate of a shift instruction: funct7 over shamt (R92, R96). Only its low 5 bits count (R141). -/
def shiftImm (funct7 : BitVec 7) (shamt : BitVec 5) : BitVec 12 := place 12 5 funct7 ||| place 12 0 shamt

/-! ### Instruction classes and control signals (R101, R133) -/

inductive InstrClass where
  | alu
  | mem
  | ctrl
  deriving DecidableEq, Repr

/-- The fields of a control-signal record that the ALU handler uses. -/
structure AluSignals where
  operation : AluOp
  operand1 : Operand1
  operand2 : Operand2
  rd : Reg
  deriving DecidableEq, Repr

/-- The class that selects the handler (R100, R133). -/
def instrClass : Instr → InstrClass
  | .lui _ _ | .auipc _ _ => .alu
  | .jal _ _ | .jalr _ _ _ => .ctrl
  | .beq _ _ _ | .bne _ _ _ | .blt _ _ _ | .bge _ _ _ | .bltu _ _ _ | .bgeu _ _ _ => .ctrl
  | .lb _ _ _ | .lh _ _ _ | .lw _ _ _ | .lbu _ _ _ | .lhu _ _ _ => .mem
  | .sb _ _ _ | .sh _ _ _ | .sw _ _ _ => .mem
  | .addi _ _ _ | .slti _ _ _ | .sltiu _ _ _ | .xori _ _ _ | .ori _ _ _ | .andi _ _ _ => .alu
  | .slli _ _ _ | .srli _ _ _ | .srai _ _ _ => .alu
  | .add _ _ _ | .sub _ _ _ | .sll _ _ _ | .slt _ _ _ | .sltu _ _ _ => .alu
  | .xor _ _ _ | .srl _ _ _ | .sra _ _ _ | .or _ _ _ | .and _ _ _ => .alu
  | .ecall | .ebreak => .ctrl

/-- The record of each ALU-class instruction, as R101 lists them; the MEM and CTRL handlers use none. -/
def aluSignals : Instr → Option AluSignals
  | .lui rd imm => some ⟨.add, .zero, .immU imm, rd⟩
  | .auipc rd imm => some ⟨.add, .pc, .immU imm, rd⟩
  | .addi rd rs1 imm => some ⟨.add, .rs1 rs1, .immI imm, rd⟩
  | .slti rd rs1 imm => some ⟨.slt, .rs1 rs1, .immI imm, rd⟩
  | .sltiu rd rs1 imm => some ⟨.sltu, .rs1 rs1, .immI imm, rd⟩
  | .xori rd rs1 imm => some ⟨.xor, .rs1 rs1, .immI imm, rd⟩
  | .ori rd rs1 imm => some ⟨.or, .rs1 rs1, .immI imm, rd⟩
  | .andi rd rs1 imm => some ⟨.and, .rs1 rs1, .immI imm, rd⟩
  | .slli rd rs1 shamt => some ⟨.sll, .rs1 rs1, .immI (shiftImm 0b0000000 shamt), rd⟩
  | .srli rd rs1 shamt => some ⟨.srl, .rs1 rs1, .immI (shiftImm 0b0000000 shamt), rd⟩
  | .srai rd rs1 shamt => some ⟨.sra, .rs1 rs1, .immI (shiftImm 0b0100000 shamt), rd⟩
  | .add rd rs1 rs2 => some ⟨.add, .rs1 rs1, .rs2 rs2, rd⟩
  | .sub rd rs1 rs2 => some ⟨.sub, .rs1 rs1, .rs2 rs2, rd⟩
  | .sll rd rs1 rs2 => some ⟨.sll, .rs1 rs1, .rs2 rs2, rd⟩
  | .slt rd rs1 rs2 => some ⟨.slt, .rs1 rs1, .rs2 rs2, rd⟩
  | .sltu rd rs1 rs2 => some ⟨.sltu, .rs1 rs1, .rs2 rs2, rd⟩
  | .xor rd rs1 rs2 => some ⟨.xor, .rs1 rs1, .rs2 rs2, rd⟩
  | .srl rd rs1 rs2 => some ⟨.srl, .rs1 rs1, .rs2 rs2, rd⟩
  | .sra rd rs1 rs2 => some ⟨.sra, .rs1 rs1, .rs2 rs2, rd⟩
  | .or rd rs1 rs2 => some ⟨.or, .rs1 rs1, .rs2 rs2, rd⟩
  | .and rd rs1 rs2 => some ⟨.and, .rs1 rs1, .rs2 rs2, rd⟩
  | .jal _ _ | .jalr _ _ _ => none
  | .beq _ _ _ | .bne _ _ _ | .blt _ _ _ | .bge _ _ _ | .bltu _ _ _ | .bgeu _ _ _ => none
  | .lb _ _ _ | .lh _ _ _ | .lw _ _ _ | .lbu _ _ _ | .lhu _ _ _ => none
  | .sb _ _ _ | .sh _ _ _ | .sw _ _ _ => none
  | .ecall | .ebreak => none

/-! ### Memory operands (42_mem.md R170, R171) -/

/-- The effective address: base plus sign-extended displacement, modulo 2^32; the base is not modified (R170). -/
def effectiveAddress (s : State) (rs1 : Reg) (imm : BitVec 12) : Word := s.readReg rs1 + imm.signExtend 32

/-- The address of the containing word, `ea & 0xFFFFFFFC` (R171, R177). -/
def containingWord (ea : Word) : Word := ea &&& 0xFFFFFFFC

/-- The bit offset of the sub-word in its containing word, `8 * ea[1:0]` (R171, R177). -/
def bitOffset (ea : Word) : Nat := 8 * (bits ea 0 2).toNat

/-! ### Jump and branch targets (43_ctrl.md R190 to R193) -/

/-- `pc + imm_j` (R191). -/
def jalTarget (s : State) (off : BitVec 21) : Word := s.pc + off.signExtend 32

/-- `(x[rs1] + imm_i) & 0xFFFFFFFE` (R192). -/
def jalrTarget (s : State) (rs1 : Reg) (imm : BitVec 12) : Word := (s.readReg rs1 + imm.signExtend 32) &&& 0xFFFFFFFE

/-- `pc + imm_b` (R193). -/
def branchTarget (s : State) (off : BitVec 13) : Word := s.pc + off.signExtend 32

end Sys2Proof.Machine
end

