-- ==== Sys2Proof/Machine/Alu.lean ====
section
/-! DEFINITION. The ALU class: the ten operations (41_alu.md R141), the handler (R140), and one meaning for each of its
21 instructions (R142 to R162). -/

namespace Sys2Proof.Machine

/-- The shift amount `b[4:0]`: "shift amounts masked to 5 bits" (R141). -/
def shiftAmount (b : Word) : Nat := (bits b 0 5).toNat

/-- The ten ALU operations (R141). -/
def alu (op : AluOp) (a b : Word) : Word :=
  match op with
  | .add => a + b
  | .sub => a - b
  | .and => a &&& b
  | .or => a ||| b
  | .xor => a ^^^ b
  | .slt => boolWord (lessSigned a b)
  | .sltu => boolWord (lessUnsigned a b)
  | .sll => a <<< shiftAmount b
  | .sra => a.sshiftRight (shiftAmount b)
  | .srl => a >>> shiftAmount b

/-- The ALU handler (R140): operands, operation, `x[rd] <- r ; pc <- pc + 4 ; event <- None`. -/
def aluHandler (sig : AluSignals) (s : State) : State :=
  (s.writeReg sig.rd (alu sig.operation (sig.operand1.value s) (sig.operand2.value s))).finish

/-- LUI (R142). -/
def execLui (rd : Reg) (imm : BitVec 20) (s : State) : Answer :=
  .next (aluHandler ⟨.add, .zero, .immU imm, rd⟩ s)

/-- AUIPC (R143). -/
def execAuipc (rd : Reg) (imm : BitVec 20) (s : State) : Answer :=
  .next (aluHandler ⟨.add, .pc, .immU imm, rd⟩ s)

/-- ADDI (R144). -/
def execAddi (rd rs1 : Reg) (imm : BitVec 12) (s : State) : Answer :=
  .next (aluHandler ⟨.add, .rs1 rs1, .immI imm, rd⟩ s)

/-- SLTI (R145). -/
def execSlti (rd rs1 : Reg) (imm : BitVec 12) (s : State) : Answer :=
  .next (aluHandler ⟨.slt, .rs1 rs1, .immI imm, rd⟩ s)

/-- SLTIU (R146). -/
def execSltiu (rd rs1 : Reg) (imm : BitVec 12) (s : State) : Answer :=
  .next (aluHandler ⟨.sltu, .rs1 rs1, .immI imm, rd⟩ s)

/-- XORI (R147). -/
def execXori (rd rs1 : Reg) (imm : BitVec 12) (s : State) : Answer :=
  .next (aluHandler ⟨.xor, .rs1 rs1, .immI imm, rd⟩ s)

/-- ORI (R148). -/
def execOri (rd rs1 : Reg) (imm : BitVec 12) (s : State) : Answer :=
  .next (aluHandler ⟨.or, .rs1 rs1, .immI imm, rd⟩ s)

/-- ANDI (R149). -/
def execAndi (rd rs1 : Reg) (imm : BitVec 12) (s : State) : Answer :=
  .next (aluHandler ⟨.and, .rs1 rs1, .immI imm, rd⟩ s)

/-- SLLI (R150). -/
def execSlli (rd rs1 : Reg) (shamt : BitVec 5) (s : State) : Answer :=
  .next (aluHandler ⟨.sll, .rs1 rs1, .immI (shiftImm 0b0000000 shamt), rd⟩ s)

/-- SRLI (R151). -/
def execSrli (rd rs1 : Reg) (shamt : BitVec 5) (s : State) : Answer :=
  .next (aluHandler ⟨.srl, .rs1 rs1, .immI (shiftImm 0b0000000 shamt), rd⟩ s)

/-- SRAI (R152): bit 10 of `imm_i` is set and "has no effect on the amount". -/
def execSrai (rd rs1 : Reg) (shamt : BitVec 5) (s : State) : Answer :=
  .next (aluHandler ⟨.sra, .rs1 rs1, .immI (shiftImm 0b0100000 shamt), rd⟩ s)

/-- ADD (R153). -/
def execAdd (rd rs1 rs2 : Reg) (s : State) : Answer :=
  .next (aluHandler ⟨.add, .rs1 rs1, .rs2 rs2, rd⟩ s)

/-- SUB (R154). -/
def execSub (rd rs1 rs2 : Reg) (s : State) : Answer :=
  .next (aluHandler ⟨.sub, .rs1 rs1, .rs2 rs2, rd⟩ s)

/-- SLL (R155). -/
def execSll (rd rs1 rs2 : Reg) (s : State) : Answer :=
  .next (aluHandler ⟨.sll, .rs1 rs1, .rs2 rs2, rd⟩ s)

/-- SLT (R156). -/
def execSlt (rd rs1 rs2 : Reg) (s : State) : Answer :=
  .next (aluHandler ⟨.slt, .rs1 rs1, .rs2 rs2, rd⟩ s)

/-- SLTU (R157). -/
def execSltu (rd rs1 rs2 : Reg) (s : State) : Answer :=
  .next (aluHandler ⟨.sltu, .rs1 rs1, .rs2 rs2, rd⟩ s)

/-- XOR (R158). -/
def execXor (rd rs1 rs2 : Reg) (s : State) : Answer :=
  .next (aluHandler ⟨.xor, .rs1 rs1, .rs2 rs2, rd⟩ s)

/-- SRL (R159). -/
def execSrl (rd rs1 rs2 : Reg) (s : State) : Answer :=
  .next (aluHandler ⟨.srl, .rs1 rs1, .rs2 rs2, rd⟩ s)

/-- SRA (R160). -/
def execSra (rd rs1 rs2 : Reg) (s : State) : Answer :=
  .next (aluHandler ⟨.sra, .rs1 rs1, .rs2 rs2, rd⟩ s)

/-- OR (R161). -/
def execOr (rd rs1 rs2 : Reg) (s : State) : Answer :=
  .next (aluHandler ⟨.or, .rs1 rs1, .rs2 rs2, rd⟩ s)

/-- AND (R162). -/
def execAnd (rd rs1 rs2 : Reg) (s : State) : Answer :=
  .next (aluHandler ⟨.and, .rs1 rs1, .rs2 rs2, rd⟩ s)

end Sys2Proof.Machine
end

