-- ==== Sys2Proof/Machine/Ctrl.lean ====
section
/-! DEFINITION. The CTRL class: the handler (43_ctrl.md R190) and one meaning for each of its 10 instructions (R191 to
R201). No target is checked for alignment (R202). -/

namespace Sys2Proof.Machine

/-- `x[rd] <- pc + 4 ; pc <- target`, the target computed before the register is written (R190). -/
def linkAndJump (rd : Reg) (target : Word) (s : State) : Answer :=
  .next ((s.writeReg rd (s.pc + 4)).jump target)

/-- The branch rule (R193): `pc <- if cond then pc + imm_b else pc + 4`. -/
def branch (c : BranchCond) (rs1 rs2 : Reg) (off : BitVec 13) (s : State) : Answer :=
  .next (if c.holds (s.readReg rs1) (s.readReg rs2) then s.jump (branchTarget s off) else s.finish)

/-- JAL (R191). -/
def execJal (rd : Reg) (off : BitVec 21) (s : State) : Answer := linkAndJump rd (jalTarget s off) s

/-- JALR (R192): bit 0 of the target is forced to 0. -/
def execJalr (rd rs1 : Reg) (imm : BitVec 12) (s : State) : Answer := linkAndJump rd (jalrTarget s rs1 imm) s

/-- BEQ (R194). -/
def execBeq (rs1 rs2 : Reg) (off : BitVec 13) (s : State) : Answer := branch .eq rs1 rs2 off s

/-- BNE (R195). -/
def execBne (rs1 rs2 : Reg) (off : BitVec 13) (s : State) : Answer := branch .ne rs1 rs2 off s

/-- BLT (R196). -/
def execBlt (rs1 rs2 : Reg) (off : BitVec 13) (s : State) : Answer := branch .lt rs1 rs2 off s

/-- BGE (R197). -/
def execBge (rs1 rs2 : Reg) (off : BitVec 13) (s : State) : Answer := branch .ge rs1 rs2 off s

/-- BLTU (R198). -/
def execBltu (rs1 rs2 : Reg) (off : BitVec 13) (s : State) : Answer := branch .ltu rs1 rs2 off s

/-- BGEU (R199). -/
def execBgeu (rs1 rs2 : Reg) (off : BitVec 13) (s : State) : Answer := branch .geu rs1 rs2 off s

/-- ECALL (R200): `pc <- pc + 4 ; raise Ecall`. -/
def execEcall (s : State) : Answer := .next (s.finish.raise .ecall)

/-- EBREAK (R201): `raise Ebreak`, pc not written. -/
def execEbreak (s : State) : Answer := .next (s.raise .ebreak)

end Sys2Proof.Machine
end

