-- ==== Sys2Proof/Machine/Mem.lean ====
section
/-! DEFINITION. The MEM class: the load algorithm (42_mem.md R171), the store algorithm (R177), and one meaning for
each of its 8 instructions (R172 to R180). A load or store word with any other funct3 matches no row of the decode
table and never reaches this handler (R181). -/

namespace Sys2Proof.Machine

/-- The end of a load: `x[rd] <- v ; pc <- pc + 4 ; event <- None` (R171). -/
def loadResult (s : State) (rd : Reg) (v : Word) : Answer := .next (s.writeReg rd v).finish

/-- A sub-word load: the containing word is read and the sub-word extracted at its bit offset (R171). A fault reports
`ea`, not the rounded address (R182; decision D11, log entry 14). -/
def loadSub (extract : Word → Word) (rd rs1 : Reg) (imm : BitVec 12) (s : State) : Answer :=
  let ea := effectiveAddress s rs1 imm
  afterMmu (memRead s (containingWord ea)) s ea fun w => loadResult s rd (extract (w >>> bitOffset ea))

/-- LB (R172): `sext_8((w >> sh)[7:0])`. -/
def execLb (rd rs1 : Reg) (imm : BitVec 12) (s : State) : Answer :=
  loadSub (fun w => (bits w 0 8).signExtend 32) rd rs1 imm s

/-- LH (R173): `sext_16((w >> sh)[15:0])`. -/
def execLh (rd rs1 : Reg) (imm : BitVec 12) (s : State) : Answer :=
  loadSub (fun w => (bits w 0 16).signExtend 32) rd rs1 imm s

/-- LW (R174): "no alignment correction applied". -/
def execLw (rd rs1 : Reg) (imm : BitVec 12) (s : State) : Answer :=
  let ea := effectiveAddress s rs1 imm
  afterMmu (memRead s ea) s ea fun w => loadResult s rd w

/-- LBU (R175): `zext_8((w >> sh)[7:0])`. -/
def execLbu (rd rs1 : Reg) (imm : BitVec 12) (s : State) : Answer :=
  loadSub (fun w => (bits w 0 8).setWidth 32) rd rs1 imm s

/-- LHU (R176): `zext_16((w >> sh)[15:0])`. -/
def execLhu (rd rs1 : Reg) (imm : BitVec 12) (s : State) : Answer :=
  loadSub (fun w => (bits w 0 16).setWidth 32) rd rs1 imm s

/-- The store algorithm (R177): a read phase and a write phase at the same address `a`, the second with what `merge`
makes of the old word. A fault in either reports `ea` (R182). -/
def storeAt (a ea : Word) (merge : Word → Word) (s : State) : Answer :=
  afterMmu (memRead s a) s ea fun old =>
    afterMmu (memWrite s a (merge old)) s ea fun t => .next t.finish

/-- The word SB writes back: the byte of `old` at bit offset `sh` replaced by `src[7:0]` (R177). -/
def mergeByte (sh : Nat) (src old : Word) : Word :=
  (old &&& ~~~((0x000000FF : Word) <<< sh)) ||| ((src &&& 0xFF) <<< sh)

/-- The word SH writes back (R179): the half-word of `old` at bit offset `sh` cleared, then the shifted source ORed in,
masked to 16 bits first only where SH_MASK16 is true. -/
def mergeHalf (mask16 : Bool) (sh : Nat) (src old : Word) : Word :=
  (old &&& ~~~((0x0000FFFF : Word) <<< sh)) ||| ((if mask16 then src &&& 0xFFFF else src) <<< sh)

/-- SB (R178). -/
def execSb (rs2 rs1 : Reg) (imm : BitVec 12) (s : State) : Answer :=
  let ea := effectiveAddress s rs1 imm
  storeAt (containingWord ea) ea (mergeByte (bitOffset ea) (s.readReg rs2)) s

/-- SH (R179). -/
def execSh (rs2 rs1 : Reg) (imm : BitVec 12) (s : State) : Answer :=
  let ea := effectiveAddress s rs1 imm
  storeAt (containingWord ea) ea (mergeHalf s.config.shMask16 (bitOffset ea) (s.readReg rs2)) s

/-- SW (R180): the read phase's value is not used. -/
def execSw (rs2 rs1 : Reg) (imm : BitVec 12) (s : State) : Answer :=
  let ea := effectiveAddress s rs1 imm
  storeAt ea ea (fun _ => s.readReg rs2) s

end Sys2Proof.Machine
end

