-- ==== Sys2Proof/Machine/Run.lean ====
section
/-! DEFINITION. The single-step operation (40_step.md R130), the run loop (60_exceptions.md R223) and the host's moves
between runs (R231). -/

namespace Sys2Proof.Machine

/-- Fetch: `MMU.memAccess(pc, _, Read)` at `pc` exactly as it stands (R131). -/
def fetch (s : State) : MmuResult Word := memRead s s.pc

/-- `singleStep()`: fetch, decode, dispatch; its event is left in `event` (R130 to R133). A failed fetch raises
`PageFaultMiss(pc, pc)`; a word that matches no row raises IllegalInstruction; nothing else changes. -/
def singleStep (s : State) : Answer :=
  afterMmu (fetch s) s s.pc fun w =>
    match decodeWord w with
    | .ok i => exec i s
    | .error _ => .next (s.raise .illegalInstruction)

/-- One turn of the run loop: a step, then the counters, the clock and the step's event (R223). -/
def runStep (s : State) : Answer :=
  match singleStep s with
  | .next t => .next t.afterStep
  | .fault r => .fault r
  | .refused r => .refused r

/-- Turns of the run loop until the run has returned, at most `n` of them. -/
def runTurns : Nat → State → Answer
  | 0, s => .next s
  | n + 1, s =>
    if s.running then
      match runStep s with
      | .next t => runTurns n t
      | .fault r => .fault r
      | .refused r => .refused r
    else .next s

/-- `run(entry)`: "with PERIOD finite every run returns after at most PERIOD + 1 steps" (R226). Its event is in
`event` of the state it answers. -/
def run (entry : Word) (s : State) : Answer := runTurns (s.config.period + 1) (s.startRun entry)

/-! ### The host between runs (R231) -/

/-- The entry of a page inserted or replaced, its 4096 bytes with it (R54, R57). -/
def State.insertPage (s : State) (vpn : Vpn) (perm : Perm) (bytes : List Byte) : State :=
  { s with
    pages := PageTable.insert s.pages vpn perm
    mem := (s.mem.clearPage vpn).writeBytes (pageBase vpn) (bytes.take 4096) }

/-- The entry of a page removed, its bytes with it (R54, R57). -/
def State.removePage (s : State) (vpn : Vpn) : State :=
  { s with pages := PageTable.remove s.pages vpn, mem := s.mem.clearPage vpn }

/-- One move of the host (R231). The counters and the parameters are out of its reach. A move on the tag or a byte of
an absent entry is refused (log entry 11); a register number above 31 is refused (R24). -/
def hostMove (m : HostMove) (s : State) : Answer :=
  match m with
  | .run entry => .next (s.startRun entry)
  | .writeReg n v =>
    match s.writeRegNo n v with
    | some t => .next t
    | none => .refused .registerIndexOutOfRange
  | .writePc v => .next { s with pc := v }
  | .insertPage vpn perm bytes => .next (s.insertPage vpn perm bytes)
  | .removePage vpn => .next (s.removePage vpn)
  | .setPerm vpn perm =>
    match translate s.pages vpn with
    | some _ => .next { s with pages := PageTable.insert s.pages vpn perm }
    | none => .refused .hostNoSuchPage
  | .writeByte a b =>
    match translate s.pages (vpnOf a) with
    | some _ => .next { s with mem := s.mem.write a.toNat b }
    | none => .refused .hostNoSuchPage

/-- A step taken while no run is in progress: the host makes its next move, having consumed the event of the run
before (R36); with no move to make "the engine is simply idle, and all state survives" (R239). -/
def hostStep (s : State) : Answer :=
  match s.host with
  | [] => .next s
  | m :: rest => hostMove m { s with host := rest, event := .none }

end Sys2Proof.Machine
end

