-- ==== Sys2Proof/Machine/Step.lean ====
section
/-! DEFINITION. One step of the whole machine: a turn of the run loop while a run is in progress, a move of the host
otherwise (60_exceptions.md R223, R231; 20_memory.md R71). -/

namespace Sys2Proof.Machine

def step (s : State) : Host.Outcome State Fault Refusal :=
  if s.running then runStep s else hostStep s

/-- The state whose very next step fetches and runs the instruction with the bits of `w` (log entry 8). -/
def State.withFetchWord (s : State) (nbits w : Nat) : State :=
  s.placeForFetch (BitVec.ofNat 32 (w % 2 ^ nbits))

end Sys2Proof.Machine
end

