-- ==== Sys2Proof/WellFormed.lean ====
section
/-! DEFINITION. Which instruction terms an instruction word can hold. Every operand type is exactly as wide as its
field, so one check is left for each of the two formats whose immediate has a fixed bit: a branch offset and a JAL
offset are even (30_encoding.md R97). -/

namespace Sys2Proof

/-- "Both are sign-extended to a Word and both have bit 0 equal to 0" (R97). -/
def evenOffset {n : Nat} (off : BitVec n) : Bool := !off.getLsbD 0

def Instr.wellFormed : Instr → Bool
  | .lui _ _ => true
  | .auipc _ _ => true
  | .jal _ off => evenOffset off
  | .jalr _ _ _ => true
  | .beq _ _ off => evenOffset off
  | .bne _ _ off => evenOffset off
  | .blt _ _ off => evenOffset off
  | .bge _ _ off => evenOffset off
  | .bltu _ _ off => evenOffset off
  | .bgeu _ _ off => evenOffset off
  | .lb _ _ _ => true
  | .lh _ _ _ => true
  | .lw _ _ _ => true
  | .lbu _ _ _ => true
  | .lhu _ _ _ => true
  | .sb _ _ _ => true
  | .sh _ _ _ => true
  | .sw _ _ _ => true
  | .addi _ _ _ => true
  | .slti _ _ _ => true
  | .sltiu _ _ _ => true
  | .xori _ _ _ => true
  | .ori _ _ _ => true
  | .andi _ _ _ => true
  | .slli _ _ _ => true
  | .srli _ _ _ => true
  | .srai _ _ _ => true
  | .add _ _ _ => true
  | .sub _ _ _ => true
  | .sll _ _ _ => true
  | .slt _ _ _ => true
  | .sltu _ _ _ => true
  | .xor _ _ _ => true
  | .srl _ _ _ => true
  | .sra _ _ _ => true
  | .or _ _ _ => true
  | .and _ _ _ => true
  | .ecall => true
  | .ebreak => true

end Sys2Proof
end

