-- ==== Sys2Proof/Safety.lean ====
section
/-! DEFINITION. The terms the claims use: the invariant of every step, what an instruction may write, which of its
accesses are word accesses, and how two answers are compared. -/

namespace Sys2Proof.Machine

/-- What every state of the machine satisfies, from reset on and after every step, the host's moves included. -/
structure State.Inv (s : State) : Prop where
  /-- One entry a page (20_memory.md R53). -/
  pagesCanonical : PageTable.wf s.pages
  /-- The memory is in its canonical form. -/
  memCanonical : Memory.wf s.mem
  /-- Only mapped pages have bytes (20_memory.md R54). -/
  bytesMapped : ∀ c ∈ s.mem, (translate s.pages (BitVec.ofNat 20 (c.1 / 4096))).isSome = true
  /-- "Counter is always in [0, period]" between steps (10_state.md R30, 60_exceptions.md R225). -/
  counterInRange : s.counter ≤ s.config.period
  /-- Every step the clock counts is a step `cycles` counts (60_exceptions.md R223). -/
  counterLeCycles : s.counter ≤ s.cycles
  /-- A run goes on only while its events are None (60_exceptions.md R223). -/
  runningQuiet : s.running = true → s.event = .none

/-- The register an instruction names as its destination, x0 included (10_state.md R25). -/
def destOf : Instr → Option Reg
  | .lui rd _ | .auipc rd _ | .jal rd _ | .jalr rd _ _ => some rd
  | .beq _ _ _ | .bne _ _ _ | .blt _ _ _ | .bge _ _ _ | .bltu _ _ _ | .bgeu _ _ _ => none
  | .lb rd _ _ | .lh rd _ _ | .lw rd _ _ | .lbu rd _ _ | .lhu rd _ _ => some rd
  | .sb _ _ _ | .sh _ _ _ | .sw _ _ _ => none
  | .addi rd _ _ | .slti rd _ _ | .sltiu rd _ _ | .xori rd _ _ | .ori rd _ _ | .andi rd _ _ => some rd
  | .slli rd _ _ | .srli rd _ _ | .srai rd _ _ => some rd
  | .add rd _ _ | .sub rd _ _ | .sll rd _ _ | .slt rd _ _ | .sltu rd _ _ => some rd
  | .xor rd _ _ | .srl rd _ _ | .sra rd _ _ | .or rd _ _ | .and rd _ _ => some rd
  | .ecall | .ebreak => none

/-- The three instructions that store (42_mem.md R177). -/
def isStore : Instr → Bool
  | .sb _ _ _ | .sh _ _ _ | .sw _ _ _ => true
  | .lui _ _ | .auipc _ _ | .jal _ _ | .jalr _ _ _ => false
  | .beq _ _ _ | .bne _ _ _ | .blt _ _ _ | .bge _ _ _ | .bltu _ _ _ | .bgeu _ _ _ => false
  | .lb _ _ _ | .lh _ _ _ | .lw _ _ _ | .lbu _ _ _ | .lhu _ _ _ => false
  | .addi _ _ _ | .slti _ _ _ | .sltiu _ _ _ | .xori _ _ _ | .ori _ _ _ | .andi _ _ _ => false
  | .slli _ _ _ | .srli _ _ _ | .srai _ _ _ => false
  | .add _ _ _ | .sub _ _ _ | .sll _ _ _ | .slt _ _ _ | .sltu _ _ _ => false
  | .xor _ _ _ | .srl _ _ _ | .sra _ _ _ | .or _ _ _ | .and _ _ _ => false
  | .ecall | .ebreak => false

/-- The address of an instruction's word access, the one kind that is not rounded down (20_memory.md R65, R68). -/
def wordAccess (i : Instr) (s : State) : Option Word :=
  match i with
  | .lw _ rs1 imm | .sw _ rs1 imm => some (effectiveAddress s rs1 imm)
  | .lui _ _ | .auipc _ _ | .jal _ _ | .jalr _ _ _ => none
  | .beq _ _ _ | .bne _ _ _ | .blt _ _ _ | .bge _ _ _ | .bltu _ _ _ | .bgeu _ _ _ => none
  | .lb _ _ _ | .lh _ _ _ | .lbu _ _ _ | .lhu _ _ _ | .sb _ _ _ | .sh _ _ _ => none
  | .addi _ _ _ | .slti _ _ _ | .sltiu _ _ _ | .xori _ _ _ | .ori _ _ _ | .andi _ _ _ => none
  | .slli _ _ _ | .srli _ _ _ | .srai _ _ _ => none
  | .add _ _ _ | .sub _ _ _ | .sll _ _ _ | .slt _ _ _ | .sltu _ _ _ => none
  | .xor _ _ _ | .srl _ _ _ | .sra _ _ _ | .or _ _ _ | .and _ _ _ => none
  | .ecall | .ebreak => none

/-- The instruction the next step of a run will execute, where the fetch and the decoder give one. -/
def Runs (s : State) (i : Instr) : Prop := ∃ w, fetch s = .done w ∧ decodeWord w = .ok i

/-- An answer with a change made to its next state, a fault or refusal as it is. -/
def mapNext (f : State → State) : Answer → Answer
  | .next t => .next (f t)
  | .fault r => .fault r
  | .refused r => .refused r

end Sys2Proof.Machine
end

