-- ==== Sys2Proof/Certificates/Slice0/Obligations.lean ====
section
/-! DEFINITION. The statements about the pyrisc CORE model, in six groups: registers and the ALU; loads and stores;
control transfer; frames, events and the step; the clock, the run and the host; decoding. A statement quantifies over
every state, hence over every PERIOD, CLOCK_FIRE and SH_MASK16, unless it says otherwise. -/

open Sys2Proof Sys2Proof.Machine

/-! ### Registers and the ALU -/

/-- R22, R23: x0 reads 0 and discards writes; a write to another register is read back and changes that register
alone; a number outside 0..31, which only the host's accessor can pass, is the fatal internal fault. -/
def Obligations.RegisterFileReadsAndWrites : Prop :=
  ∀ (s : State) (r q : Reg) (v : Word) (n : Nat),
    s.readReg 0 = 0 ∧ s.writeReg 0 v = s ∧
    (r ≠ 0 → (s.writeReg r v).readReg r = v) ∧
    (q ≠ r → (s.writeReg r v).readReg q = s.readReg q) ∧
    (∃ regs, s.writeReg r v = { s with regs := regs }) ∧
    s.readRegNo n = (if n ≤ 31 then some (s.readReg (BitVec.ofNat 5 n)) else none) ∧
    s.writeRegNo n v = (if n ≤ 31 then some (s.writeReg (BitVec.ofNat 5 n) v) else none)

/-- R141: the ten operations, as arithmetic on the unsigned and two's-complement values; SRA is the floor of the
division by the power of two. -/
def Obligations.AluOperationsCompute : Prop :=
  ∀ a b : Word,
    (alu .add a b).toNat = (a.toNat + b.toNat) % 2 ^ 32 ∧
    ((alu .sub a b).toNat : Int) = ((a.toNat : Int) - (b.toNat : Int)) % 2 ^ 32 ∧
    (∀ i, (alu .and a b).getLsbD i = (a.getLsbD i && b.getLsbD i)) ∧
    (∀ i, (alu .or a b).getLsbD i = (a.getLsbD i || b.getLsbD i)) ∧
    (∀ i, (alu .xor a b).getLsbD i = (a.getLsbD i ^^ b.getLsbD i)) ∧
    alu .slt a b = (if a.toInt < b.toInt then 1 else 0) ∧
    alu .sltu a b = (if a.toNat < b.toNat then 1 else 0) ∧
    (alu .sll a b).toNat = a.toNat * 2 ^ (b.toNat % 32) % 2 ^ 32 ∧
    (alu .srl a b).toNat = a.toNat / 2 ^ (b.toNat % 32) ∧
    (alu .sra a b).toInt = Int.fdiv a.toInt (2 ^ (b.toNat % 32))

/-- R142, R143 (41_alu.md): LUI writes `imm_u`, AUIPC `pc + imm_u`; both complete with pc + 4 and event None. That
LUI's operand 1 is 0 is the spec's own decision D4, that both are in the table D1 (log entries 16, 17). -/
def Obligations.UpperImmediateResults : Prop :=
  ∀ (rd : Reg) (imm : BitVec 20) (s : State),
    exec (.lui rd imm) s =
      .next { s.writeReg rd (imm.setWidth 32 <<< 12) with pc := s.pc + 4, event := .none } ∧
    exec (.auipc rd imm) s =
      .next { s.writeReg rd (s.pc + (imm.setWidth 32 <<< 12)) with pc := s.pc + 4, event := .none }

/-- R144, R147 to R149 (41_alu.md): ADDI, XORI, ORI, ANDI on the sign-extended immediate; that every one of them
sign-extends is the spec's own decision D5 (log entry 17). -/
def Obligations.ImmediateArithmeticResults : Prop :=
  ∀ (rd rs1 : Reg) (imm : BitVec 12) (s : State),
    exec (.addi rd rs1 imm) s =
      .next { s.writeReg rd (s.readReg rs1 + imm.signExtend 32) with pc := s.pc + 4, event := .none } ∧
    exec (.xori rd rs1 imm) s =
      .next { s.writeReg rd (s.readReg rs1 ^^^ imm.signExtend 32) with pc := s.pc + 4, event := .none } ∧
    exec (.ori rd rs1 imm) s =
      .next { s.writeReg rd (s.readReg rs1 ||| imm.signExtend 32) with pc := s.pc + 4, event := .none } ∧
    exec (.andi rd rs1 imm) s =
      .next { s.writeReg rd (s.readReg rs1 &&& imm.signExtend 32) with pc := s.pc + 4, event := .none }

/-- R145, R146 (41_alu.md): SLTI compares two's-complement values, SLTIU unsigned ones, both with the sign-extended
immediate; for SLTIU that is the spec's own decision D5 (log entry 17). -/
def Obligations.ImmediateComparisonResults : Prop :=
  ∀ (rd rs1 : Reg) (imm : BitVec 12) (s : State),
    exec (.slti rd rs1 imm) s =
      .next { s.writeReg rd (if (s.readReg rs1).toInt < imm.toInt then 1 else 0) with
        pc := s.pc + 4, event := .none } ∧
    exec (.sltiu rd rs1 imm) s =
      .next { s.writeReg rd (if (s.readReg rs1).toNat < (imm.signExtend 32).toNat then 1 else 0) with
        pc := s.pc + 4, event := .none }

/-- R150 to R152 (41_alu.md): the immediate shifts, by exactly `shamt`; that the operand is `imm_i`, of which SRAI's
bit 10 has no effect, is part of decision D5 (log entry 17). -/
def Obligations.ImmediateShiftResults : Prop :=
  ∀ (rd rs1 : Reg) (shamt : BitVec 5) (s : State),
    exec (.slli rd rs1 shamt) s =
      .next { s.writeReg rd (s.readReg rs1 <<< shamt.toNat) with pc := s.pc + 4, event := .none } ∧
    exec (.srli rd rs1 shamt) s =
      .next { s.writeReg rd (s.readReg rs1 >>> shamt.toNat) with pc := s.pc + 4, event := .none } ∧
    exec (.srai rd rs1 shamt) s =
      .next { s.writeReg rd ((s.readReg rs1).sshiftRight shamt.toNat) with pc := s.pc + 4, event := .none }

/-- R153, R154, R158, R161, R162: ADD, SUB, XOR, OR, AND on the old values of rs1 and rs2, for every rd, x0 and a
source register included. -/
def Obligations.RegisterArithmeticResults : Prop :=
  ∀ (rd rs1 rs2 : Reg) (s : State),
    exec (.add rd rs1 rs2) s =
      .next { s.writeReg rd (s.readReg rs1 + s.readReg rs2) with pc := s.pc + 4, event := .none } ∧
    exec (.sub rd rs1 rs2) s =
      .next { s.writeReg rd (s.readReg rs1 - s.readReg rs2) with pc := s.pc + 4, event := .none } ∧
    exec (.xor rd rs1 rs2) s =
      .next { s.writeReg rd (s.readReg rs1 ^^^ s.readReg rs2) with pc := s.pc + 4, event := .none } ∧
    exec (.or rd rs1 rs2) s =
      .next { s.writeReg rd (s.readReg rs1 ||| s.readReg rs2) with pc := s.pc + 4, event := .none } ∧
    exec (.and rd rs1 rs2) s =
      .next { s.writeReg rd (s.readReg rs1 &&& s.readReg rs2) with pc := s.pc + 4, event := .none }

/-- R155, R159, R160: the register shifts use the low 5 bits of rs2 alone. -/
def Obligations.RegisterShiftResults : Prop :=
  ∀ (rd rs1 rs2 : Reg) (s : State),
    exec (.sll rd rs1 rs2) s =
      .next { s.writeReg rd (s.readReg rs1 <<< ((s.readReg rs2).toNat % 32)) with pc := s.pc + 4, event := .none } ∧
    exec (.srl rd rs1 rs2) s =
      .next { s.writeReg rd (s.readReg rs1 >>> ((s.readReg rs2).toNat % 32)) with pc := s.pc + 4, event := .none } ∧
    exec (.sra rd rs1 rs2) s =
      .next { s.writeReg rd ((s.readReg rs1).sshiftRight ((s.readReg rs2).toNat % 32)) with
        pc := s.pc + 4, event := .none }

/-- R156, R157: SLT compares two's-complement values, SLTU unsigned ones, and the result is the Word 1 or 0. -/
def Obligations.RegisterComparisonResults : Prop :=
  ∀ (rd rs1 rs2 : Reg) (s : State),
    exec (.slt rd rs1 rs2) s =
      .next { s.writeReg rd (if (s.readReg rs1).toInt < (s.readReg rs2).toInt then 1 else 0) with
        pc := s.pc + 4, event := .none } ∧
    exec (.sltu rd rs1 rs2) s =
      .next { s.writeReg rd (if (s.readReg rs1).toNat < (s.readReg rs2).toNat then 1 else 0) with
        pc := s.pc + 4, event := .none }

/-- 41_alu.md R140, 30_encoding.md R101 (the records of the ALU class; LUI's operand 1 is decision D4): the ALU-class instructions are exactly
those with a record, and each of them completes with the operation of its record on the operands of its record. -/
def Obligations.AluClassRunsItsRecord : Prop :=
  ∀ (i : Instr) (s : State),
    (instrClass i = .alu ↔ ∃ sig, aluSignals i = some sig) ∧
    ∀ sig, aluSignals i = some sig →
      exec i s = .next { s.writeReg sig.rd (alu sig.operation (sig.operand1.value s) (sig.operand2.value s)) with
        pc := s.pc + 4, event := .none }

/-! ### Loads and stores -/

/-- 42_mem.md R171: on a mapped page a load reads the containing word (LW: the word at `ea`, where its four bytes lie in
the page), extracts the sub-word at bit offset `8 * ea[1:0]`, extends it, writes rd and completes. The read is made
before rd is written, so rd may be rs1. That LW reads a misaligned `ea` as it stands is the spec's own decision D7, that
LH and LHU at offset 3 of a word take the field cut off at its end decision D9 (log entry 18). -/
def Obligations.LoadsReadAndExtend : Prop :=
  ∀ (rd rs1 : Reg) (imm : BitVec 12) (s : State) (p : Perm),
    translate s.pages (vpnOf (s.readReg rs1 + imm.signExtend 32)) = some p →
    let ea := s.readReg rs1 + imm.signExtend 32
    let w := s.mem.readWord (ea &&& 0xFFFFFFFC).toNat >>> (8 * (ea.toNat % 4))
    exec (.lb rd rs1 imm) s =
      .next { s.writeReg rd ((w.setWidth 8).signExtend 32) with pc := s.pc + 4, event := .none } ∧
    exec (.lbu rd rs1 imm) s =
      .next { s.writeReg rd ((w.setWidth 8).setWidth 32) with pc := s.pc + 4, event := .none } ∧
    exec (.lh rd rs1 imm) s =
      .next { s.writeReg rd ((w.setWidth 16).signExtend 32) with pc := s.pc + 4, event := .none } ∧
    exec (.lhu rd rs1 imm) s =
      .next { s.writeReg rd ((w.setWidth 16).setWidth 32) with pc := s.pc + 4, event := .none } ∧
    (ea.toNat % 4096 ≤ 0xFFC → exec (.lw rd rs1 imm) s =
      .next { s.writeReg rd (s.mem.readWord ea.toNat) with pc := s.pc + 4, event := .none })

/-- 42_mem.md R172, R175: LB and LBU deliver the byte at `ea`, sign- and zero-extended, at every alignment. -/
def Obligations.ByteLoadsDeliverTheByte : Prop :=
  ∀ (rd rs1 : Reg) (imm : BitVec 12) (s : State) (b : Byte),
    s.byteAt (effectiveAddress s rs1 imm) = some b →
    exec (.lb rd rs1 imm) s =
      .next { s.writeReg rd (b.signExtend 32) with pc := s.pc + 4, event := .none } ∧
    exec (.lbu rd rs1 imm) s =
      .next { s.writeReg rd (b.setWidth 32) with pc := s.pc + 4, event := .none }

/-- 42_mem.md R173, R176: at offsets 0, 1 and 2 of a word LH and LHU deliver the two bytes from `ea`; at offset 3 both
deliver the byte at `ea`, zero-extended, and the next word is not read. The case of offset 3 is the spec's own
decision D9 (log entry 18). -/
def Obligations.HalfwordLoadsByOffset : Prop :=
  ∀ (rd rs1 : Reg) (imm : BitVec 12) (s : State) (b0 b1 : Byte),
    s.byteAt (effectiveAddress s rs1 imm) = some b0 →
    ((effectiveAddress s rs1 imm).toNat % 4 ≤ 2 → s.byteAt (effectiveAddress s rs1 imm + 1) = some b1 →
      exec (.lh rd rs1 imm) s =
        .next { s.writeReg rd ((b1.setWidth 16 <<< 8 ||| b0.setWidth 16).signExtend 32) with pc := s.pc + 4, event := .none } ∧
      exec (.lhu rd rs1 imm) s =
        .next { s.writeReg rd ((b1.setWidth 16 <<< 8 ||| b0.setWidth 16).setWidth 32) with pc := s.pc + 4, event := .none }) ∧
    ((effectiveAddress s rs1 imm).toNat % 4 = 3 →
      exec (.lh rd rs1 imm) s =
        .next { s.writeReg rd (b0.setWidth 32) with pc := s.pc + 4, event := .none } ∧
      exec (.lhu rd rs1 imm) s =
        .next { s.writeReg rd (b0.setWidth 32) with pc := s.pc + 4, event := .none })

/-- 42_mem.md R182, 60_exceptions.md R214, R217: a load whose page is absent ends with `PageFaultMiss(ea, pc)` and
changes nothing else, at every offset, 0xFFD to 0xFFF included. That the payload is the unrounded `ea` is the spec's
own decision D11 (log entry 14). -/
def Obligations.LoadsFaultOnAbsentPage : Prop :=
  ∀ (rd rs1 : Reg) (imm : BitVec 12) (s : State),
    translate s.pages (vpnOf (effectiveAddress s rs1 imm)) = none →
    let answer : Answer := .next { s with event := .pageFaultMiss (effectiveAddress s rs1 imm) s.pc }
    exec (.lb rd rs1 imm) s = answer ∧ exec (.lh rd rs1 imm) s = answer ∧ exec (.lw rd rs1 imm) s = answer ∧
    exec (.lbu rd rs1 imm) s = answer ∧ exec (.lhu rd rs1 imm) s = answer

/-- 42_mem.md R177, R182, 60_exceptions.md R214, R215: a store to an absent page ends with `PageFaultMiss(ea, pc)`, a
store to a ReadOnly page with `PageFaultPerms(ea, pc)` (SW where its four bytes lie in the page), and nothing else
changes. The payload's bits 1:0 are the spec's own decision D11 (log entry 14). -/
def Obligations.StoresFaultOnAbsentOrReadOnlyPage : Prop :=
  ∀ (rs2 rs1 : Reg) (imm : BitVec 12) (s : State),
    let ea := effectiveAddress s rs1 imm
    (translate s.pages (vpnOf ea) = none →
      exec (.sb rs2 rs1 imm) s = .next { s with event := .pageFaultMiss ea s.pc } ∧
      exec (.sh rs2 rs1 imm) s = .next { s with event := .pageFaultMiss ea s.pc } ∧
      exec (.sw rs2 rs1 imm) s = .next { s with event := .pageFaultMiss ea s.pc }) ∧
    (translate s.pages (vpnOf ea) = some .readOnly →
      exec (.sb rs2 rs1 imm) s = .next { s with event := .pageFaultPerms ea s.pc } ∧
      exec (.sh rs2 rs1 imm) s = .next { s with event := .pageFaultPerms ea s.pc } ∧
      (ea.toNat % 4096 ≤ 0xFFC → exec (.sw rs2 rs1 imm) s = .next { s with event := .pageFaultPerms ea s.pc }))

/-- 20_memory.md R66 (the spec's own decision D8, log entry 9): on a mapped page of either tag, LW, SW and fetch at an
address whose low 12 bits exceed 0xFFC are refused. -/
def Obligations.WordAccessPastPageEndIsRefused : Prop :=
  ∀ (r rs1 : Reg) (imm : BitVec 12) (s : State) (p : Perm),
    (translate s.pages (vpnOf (effectiveAddress s rs1 imm)) = some p →
      0xFFC < (effectiveAddress s rs1 imm).toNat % 4096 →
      exec (.lw r rs1 imm) s = .refused .wordPastPageEnd ∧ exec (.sw r rs1 imm) s = .refused .wordPastPageEnd) ∧
    (s.running = true → translate s.pages (vpnOf s.pc) = some p → 0xFFC < s.pc.toNat % 4096 →
      step s = .refused .wordPastPageEnd)

/-- 42_mem.md R178: on a ReadWrite page SB completes; the byte at `ea` becomes `x[rs2][7:0]`, and no other byte, no
register and nothing else changes.
The premise on the memory is the canonical form, which every step keeps (StepKeepsTheInvariant). -/
def Obligations.StoreByteEffect : Prop :=
  ∀ (rs2 rs1 : Reg) (imm : BitVec 12) (s : State),
    Memory.wf s.mem → translate s.pages (vpnOf (effectiveAddress s rs1 imm)) = some .readWrite →
    ∃ m, exec (.sb rs2 rs1 imm) s = .next { s with mem := m, pc := s.pc + 4, event := .none } ∧
      ∀ a : Word, State.byteAt { s with mem := m, pc := s.pc + 4, event := .none } a =
        if a = effectiveAddress s rs1 imm then some (byteOf (s.readReg rs2) 0) else s.byteAt a

/-- 42_mem.md R179: on a ReadWrite page SH completes; which bytes get which values, by the offset of `ea` in its word
and SH_MASK16. The merge by OR, the default of SH_MASK16 and offset 3 are the spec's own decisions D10 and D9 (log
entries 12, 18).
The premise on the memory is the canonical form, which every step keeps (StepKeepsTheInvariant). -/
def Obligations.StoreHalfwordEffect : Prop :=
  ∀ (rs2 rs1 : Reg) (imm : BitVec 12) (s : State),
    Memory.wf s.mem → translate s.pages (vpnOf (effectiveAddress s rs1 imm)) = some .readWrite →
    let ea := effectiveAddress s rs1 imm
    let src := s.readReg rs2
    ∃ m, exec (.sh rs2 rs1 imm) s = .next { s with mem := m, pc := s.pc + 4, event := .none } ∧
      ∀ a : Word, State.byteAt { s with mem := m, pc := s.pc + 4, event := .none } a =
        if a = ea then some (byteOf src 0)
        else if a = ea + 1 ∧ ea.toNat % 4 ≤ 2 then some (byteOf src 1)
        else if a = ea + 2 ∧ ea.toNat % 4 ≤ 1 ∧ s.config.shMask16 = false then
          (s.byteAt a).map (fun old => old ||| byteOf src 2)
        else if a = ea + 3 ∧ ea.toNat % 4 = 0 ∧ s.config.shMask16 = false then
          (s.byteAt a).map (fun old => old ||| byteOf src 3)
        else s.byteAt a

/-- 42_mem.md R180: on a ReadWrite page, with `ea[11:0] <= 0xFFC` and no other alignment condition (decision D7, log
entry 18), SW completes; the four bytes from `ea` become `x[rs2]`, little-endian, and nothing else changes.
The premise on the memory is the canonical form, which every step keeps (StepKeepsTheInvariant). -/
def Obligations.StoreWordEffect : Prop :=
  ∀ (rs2 rs1 : Reg) (imm : BitVec 12) (s : State),
    Memory.wf s.mem → translate s.pages (vpnOf (effectiveAddress s rs1 imm)) = some .readWrite →
    (effectiveAddress s rs1 imm).toNat % 4096 ≤ 0xFFC →
    let ea := effectiveAddress s rs1 imm
    ∃ m, exec (.sw rs2 rs1 imm) s = .next { s with mem := m, pc := s.pc + 4, event := .none } ∧
      ∀ a : Word, State.byteAt { s with mem := m, pc := s.pc + 4, event := .none } a =
        if a = ea then some (byteOf (s.readReg rs2) 0)
        else if a = ea + 1 then some (byteOf (s.readReg rs2) 1)
        else if a = ea + 2 then some (byteOf (s.readReg rs2) 2)
        else if a = ea + 3 then some (byteOf (s.readReg rs2) 3)
        else s.byteAt a

/-- 20_memory.md R61: the MMU operation: the miss test, then for a Write the permission test, then the four bytes from `vpo`,
little-endian, for `vpo <= 0xFFC`; a Read changes nothing, a Write nothing but its four bytes.
The premise on the memory is the canonical form, which every step keeps (StepKeepsTheInvariant). -/
def Obligations.MemAccessFollowsItsSteps : Prop :=
  ∀ (s : State) (a data : Word), Memory.wf s.mem →
    (translate s.pages (vpnOf a) = none → ∀ f, memAccess s a data f = .fault .pageFaultMiss) ∧
    (translate s.pages (vpnOf a) = some .readOnly → memAccess s a data .write = .fault .pageFaultPerms) ∧
    (∀ p, translate s.pages (vpnOf a) = some p → a.toNat % 4096 ≤ 0xFFC →
      ∃ w : Word, memAccess s a data .read = .done (w, s) ∧
        w.extractLsb' 0 8 = s.mem.read a.toNat ∧ w.extractLsb' 8 8 = s.mem.read (a.toNat + 1) ∧
        w.extractLsb' 16 8 = s.mem.read (a.toNat + 2) ∧ w.extractLsb' 24 8 = s.mem.read (a.toNat + 3)) ∧
    (translate s.pages (vpnOf a) = some .readWrite → a.toNat % 4096 ≤ 0xFFC →
      ∃ m, memAccess s a data .write = .done (0, { s with mem := m }) ∧
        ∀ x : Nat, m.read x =
          if x = a.toNat then data.extractLsb' 0 8
          else if x = a.toNat + 1 then data.extractLsb' 8 8
          else if x = a.toNat + 2 then data.extractLsb' 16 8
          else if x = a.toNat + 3 then data.extractLsb' 24 8
          else s.mem.read x)

/-- 20_memory.md R67: a word written through the MMU is read back bit for bit at the same address, and a read anywhere in the page
gives in each byte lane the byte last written to that page offset.
The premise on the memory is the canonical form, which every step keeps (StepKeepsTheInvariant). -/
def Obligations.WordRoundTripThroughTheMmu : Prop :=
  ∀ (s t : State) (a v : Word), Memory.wf s.mem → memWrite s a v = .done t →
    memRead t a = .done v ∧
    ∀ (b w : Word), vpnOf b = vpnOf a → memRead t b = .done w →
      ∀ k, k < 4 → byteOf w k =
        if a.toNat ≤ b.toNat + k ∧ b.toNat + k < a.toNat + 4 then byteOf v (b.toNat + k - a.toNat)
        else s.mem.read (b.toNat + k)

/-! ### Control transfer -/

/-- 43_ctrl.md R191, R192: JAL and JALR write the link value `pc + 4` to rd and jump; JALR's target is computed from
the old rs1 (decision D6, log entry 17) with bit 0 forced to 0; no target is checked. -/
def Obligations.JumpResults : Prop :=
  ∀ (rd rs1 : Reg) (off : BitVec 21) (imm : BitVec 12) (s : State),
    exec (.jal rd off) s =
      .next { s.writeReg rd (s.pc + 4) with pc := s.pc + off.signExtend 32, event := .none } ∧
    ∃ target : Word,
      exec (.jalr rd rs1 imm) s = .next { s.writeReg rd (s.pc + 4) with pc := target, event := .none } ∧
      target.getLsbD 0 = false ∧
      ∀ k, 1 ≤ k → target.getLsbD k = (s.readReg rs1 + imm.signExtend 32).getLsbD k

/-- R194 to R199: each branch completes, writes no register and goes to `pc + imm_b` when its condition holds, else to
`pc + 4`. -/
def Obligations.BranchResults : Prop :=
  ∀ (rs1 rs2 : Reg) (off : BitVec 13) (s : State),
    let a := s.readReg rs1
    let b := s.readReg rs2
    let taken := s.pc + off.signExtend 32
    exec (.beq rs1 rs2 off) s = .next { s with pc := if a = b then taken else s.pc + 4, event := .none } ∧
    exec (.bne rs1 rs2 off) s = .next { s with pc := if a = b then s.pc + 4 else taken, event := .none } ∧
    exec (.blt rs1 rs2 off) s =
      .next { s with pc := if a.toInt < b.toInt then taken else s.pc + 4, event := .none } ∧
    exec (.bge rs1 rs2 off) s =
      .next { s with pc := if b.toInt ≤ a.toInt then taken else s.pc + 4, event := .none } ∧
    exec (.bltu rs1 rs2 off) s =
      .next { s with pc := if a.toNat < b.toNat then taken else s.pc + 4, event := .none } ∧
    exec (.bgeu rs1 rs2 off) s =
      .next { s with pc := if b.toNat ≤ a.toNat then taken else s.pc + 4, event := .none }

/-- 43_ctrl.md R200, R201: ECALL advances pc by 4 and raises Ecall; EBREAK leaves pc and raises Ebreak; nothing else
changes. Each is the whole word 0x00000073 or 0x00100073 and no other word; the two numbers are general knowledge in the
spec (log entry 15). -/
def Obligations.EcallAndEbreakRaiseTheirEvents : Prop :=
  ∀ (s : State) (w : Word),
    exec .ecall s = .next { s with pc := s.pc + 4, event := .ecall } ∧
    exec .ebreak s = .next { s with event := .ebreak } ∧
    (decodeWord w = .ok .ecall ↔ w = 0x00000073) ∧ (decodeWord w = .ok .ebreak ↔ w = 0x00100073)

/-! ### Frames, events and the step -/

/-- 10_state.md R25, R30, R34, R35: whatever an instruction's outcome in a next state, no register changes but the one
it names as destination, and the parameters, both counters, the page table's entries and tags, the run and the host's
moves are as before. -/
def Obligations.ExecFrame : Prop :=
  ∀ (i : Instr) (s t : State), exec i s = .next t →
    (∀ r, destOf i ≠ some r → t.readReg r = s.readReg r) ∧
    t.config = s.config ∧ t.counter = s.counter ∧ t.cycles = s.cycles ∧ t.pages = s.pages ∧
    t.running = s.running ∧ t.host = s.host

/-- 10_state.md R34, 41_alu.md R140, 42_mem.md R171, 43_ctrl.md R190: the 36 instructions that store nothing leave every
byte of memory as it was. -/
def Obligations.NonStoresKeepMemory : Prop :=
  ∀ (i : Instr) (s t : State), isStore i = false → exec i s = .next t →
    t.mem = s.mem ∧ ∀ a : Word, t.byteAt a = s.byteAt a

/-- 20_memory.md R68: the bytes a store can change, in every next state it answers: SB the byte at the effective
address; SH the containing word; SW the four bytes from the effective address.
The premise on the memory is the canonical form, which every step keeps (StepKeepsTheInvariant). -/
def Obligations.StoresChangeOnlyTheirBytes : Prop :=
  ∀ (rs2 rs1 : Reg) (imm : BitVec 12) (s t : State) (a : Word), Memory.wf s.mem →
    let ea := effectiveAddress s rs1 imm
    (exec (.sb rs2 rs1 imm) s = .next t → a ≠ ea → t.byteAt a = s.byteAt a) ∧
    (exec (.sh rs2 rs1 imm) s = .next t → containingWord a ≠ containingWord ea → t.byteAt a = s.byteAt a) ∧
    (exec (.sw rs2 rs1 imm) s = .next t → a ≠ ea → a ≠ ea + 1 → a ≠ ea + 2 → a ≠ ea + 3 → t.byteAt a = s.byteAt a)

/-- 40_step.md R134, 60_exceptions.md R218: every event is precise: a step that ends in Ecall has changed pc by 4 and
nothing else, one that ends in Ebreak, IllegalInstruction or a memory fault has changed nothing, and no step ends in
Clock. -/
def Obligations.EventsArePrecise : Prop :=
  ∀ s t : State, singleStep s = .next t →
    t.event ≠ .clock ∧
    (t.event = .ecall → t = { s with pc := s.pc + 4, event := .ecall }) ∧
    (t.event ≠ .none → t.event ≠ .ecall → t = { s with event := t.event })

/-- 60_exceptions.md R214, R215, R217: a memory-fault event of a step carries the pc of its instruction; the page of its
faultAddress is absent for PageFaultMiss and ReadOnly for PageFaultPerms, which only a store raises. -/
def Obligations.MemoryFaultPayload : Prop :=
  ∀ (s t : State) (fa fpc : Word), singleStep s = .next t →
    (t.event = .pageFaultMiss fa fpc → fpc = s.pc ∧ translate s.pages (vpnOf fa) = none) ∧
    (t.event = .pageFaultPerms fa fpc → fpc = s.pc ∧ translate s.pages (vpnOf fa) = some .readOnly ∧
      ∃ i, Runs s i ∧ isStore i = true)

/-- R131: a fetch from an absent page ends the step with `PageFaultMiss(pc, pc)` and no other change; from a mapped page,
for every tag and alignment with `pc[11:0] <= 0xFFC`, it gives the four bytes at pc, little-endian. -/
def Obligations.FetchReadsThePcOrFaults : Prop :=
  ∀ s : State,
    (translate s.pages (vpnOf s.pc) = none → singleStep s = .next { s with event := .pageFaultMiss s.pc s.pc }) ∧
    (∀ p, translate s.pages (vpnOf s.pc) = some p → s.pc.toNat % 4096 ≤ 0xFFC →
      ∃ w : Word, fetch s = .done w ∧
        w.extractLsb' 0 8 = s.mem.read s.pc.toNat ∧ w.extractLsb' 8 8 = s.mem.read (s.pc.toNat + 1) ∧
        w.extractLsb' 16 8 = s.mem.read (s.pc.toNat + 2) ∧ w.extractLsb' 24 8 = s.mem.read (s.pc.toNat + 3))

/-- 40_step.md R132, 60_exceptions.md R211: a fetched word that matches no row ends the step with IllegalInstruction and
no other change. -/
def Obligations.UnmatchedWordRaisesIllegalInstruction : Prop :=
  ∀ (s : State) (w : Word), fetch s = .done w → (∀ r ∈ table, w &&& r.mask ≠ r.value) →
    singleStep s = .next { s with event := .illegalInstruction }

/-- 40_step.md R130: while a run is in progress, when the four bytes at pc decode to an instruction, a step is that
instruction's execution followed by the run loop's counting. -/
def Obligations.StepRunsTheDecodedInstruction : Prop :=
  ∀ (s : State) (p : Perm) (i : Instr), s.running = true →
    translate s.pages (vpnOf s.pc) = some p → s.pc.toNat % 4096 ≤ 0xFFC →
    decodeBytes [s.mem.read s.pc.toNat, s.mem.read (s.pc.toNat + 1), s.mem.read (s.pc.toNat + 2),
      s.mem.read (s.pc.toNat + 3)] = .ok (i, []) →
    step s = mapNext State.afterStep (exec i s)

/-- 20_memory.md R66 and the model's log entries 9, 10: a step of a run answers a next state or is the refusal of R66;
it never faults and is never refused for another reason. -/
def Obligations.RunningStepAnswersOrIsPastPageEnd : Prop :=
  ∀ s : State, s.running = true → (∃ t, step s = .next t) ∨ step s = .refused .wordPastPageEnd

/-- 20_memory.md R66, 70_reset_and_hazards.md R266: a program whose word accesses and pc are multiples of 4 never meets
the refusal. -/
def Obligations.AlignedStepIsNeverRefused : Prop :=
  ∀ s : State, s.running = true → s.pc.toNat % 4 = 0 →
    (∀ i a, Runs s i → wordAccess i s = some a → a.toNat % 4 = 0) → ∃ t, step s = .next t

/-- 10_state.md R34, 20_memory.md R57, 60_exceptions.md R234: no step of a run adds, removes or retags a page, changes a
parameter, or touches what the host will do. -/
def Obligations.RunningStepKeepsTranslation : Prop :=
  ∀ s t : State, s.running = true → step s = .next t →
    t.pages = s.pages ∧ t.config = s.config ∧ t.host = s.host

/-- 20_memory.md R55, 60_exceptions.md R215: no step of a run changes a byte of a ReadOnly page. -/
def Obligations.RunningStepKeepsReadOnlyBytes : Prop :=
  ∀ (s t : State) (a : Word), s.running = true → step s = .next t →
    translate s.pages (vpnOf a) = some .readOnly → t.byteAt a = s.byteAt a

/-- 10_state.md R34 ("the engine changes the bytes of a page through store instructions"): where a step of a run changes
a byte, its instruction is a store that completed. -/
def Obligations.OnlyCompletedStoresChangeBytes : Prop :=
  ∀ (s t : State) (a : Word), s.running = true → step s = .next t → t.byteAt a ≠ s.byteAt a →
    ∃ i, Runs s i ∧ isStore i = true ∧ t.pc = s.pc + 4

/-- The model's invariant (10_state.md R30, 20_memory.md R53, R54; log entries 4, 5): every step that answers a next
state keeps it, the steps of a run and the host's moves alike. -/
def Obligations.StepKeepsTheInvariant : Prop :=
  ∀ s t : State, s.Inv → step s = .next t → t.Inv

/-- The invariant holds right after reset, whatever the parameters the engine is built with. -/
def Obligations.ResetHasTheInvariant : Prop :=
  State.reset.Inv ∧ ∀ c : Config, (State.built c).Inv

/-- 30_encoding.md R91, 43_ctrl.md R202: from an even pc, every step of a run leaves pc even: all branch and jump offsets
are even and JALR clears bit 0. -/
def Obligations.RunningStepKeepsPcEven : Prop :=
  ∀ s t : State, s.running = true → s.pc.getLsbD 0 = false → step s = .next t → t.pc.getLsbD 0 = false

/-- 10_state.md R36 and log entry 5: a step of a run does not read the event the state holds: no event of the past is
persisted. -/
def Obligations.RunningStepIgnoresThePastEvent : Prop :=
  ∀ (s : State) (e : Event), s.running = true → step { s with event := e } = step s

/-- 10_state.md R31 ("it affects no other state and no event"): two states that differ in `cycles` alone step to states
that differ in `cycles` alone, by as much. -/
def Obligations.CyclesAffectsNothingElse : Prop :=
  ∀ (s : State) (n : Nat),
    step { s with cycles := s.cycles + n } = mapNext (fun t => { t with cycles := t.cycles + n }) (step s)

/-- 10_state.md R30, R31, 60_exceptions.md R238: no instruction reads or writes the clock, its period, its comparison or
the cycle counter. -/
def Obligations.InstructionsIgnoreTheClock : Prop :=
  ∀ (i : Instr) (s : State) (counter cycles period : Nat) (fire : ClockFire),
    exec i { s with counter := counter, cycles := cycles,
                    config := { s.config with period := period, clockFire := fire } } =
      mapNext (fun t => { t with counter := counter, cycles := cycles,
                                 config := { t.config with period := period, clockFire := fire } }) (exec i s)

/-! ### The clock, the run and the host -/

/-- 60_exceptions.md R223, R224 (conflicts C1, C2; the comparison is the parameter of decision D13, the override decision
D14; log entries 13, 19): after a step both counters go up by one; where the clock fires the counter is 0 and Clock
replaces the step's event, whose other effects stand; otherwise an event other than None ends the run. -/
def Obligations.RunLoopTurn : Prop :=
  ∀ s t : State, s.running = true → singleStep s = .next t →
    let fires : Prop :=
      (s.config.clockFire = .exceeds ∧ s.config.period < s.counter + 1) ∨
      (s.config.clockFire = .reaches ∧ s.config.period ≤ s.counter + 1)
    (fires → step s = .next { t with cycles := s.cycles + 1, counter := 0, event := .clock, running := false }) ∧
    (¬fires → step s = .next { t with
      cycles := s.cycles + 1, counter := s.counter + 1, running := decide (t.event = .none) })

/-- 60_exceptions.md R223, R225: every step counts, whatever its outcome (conflict C3), in `cycles` too; the counter is set
to 0 only when the clock fires, and then the event is Clock whatever the step's own event was (decision D14); it stays in
0..PERIOD and is not reset when `run` is called. That every step counts and that Clock overrides are log entry 19. -/
def Obligations.ClockCountsEveryStep : Prop :=
  ∀ s t : State, s.running = true → step s = .next t →
    t.cycles = s.cycles + 1 ∧
    ((t.counter = s.counter + 1 ∧ t.event ≠ .clock) ∨ (t.counter = 0 ∧ t.event = .clock ∧ t.running = false)) ∧
    (s.counter ≤ s.config.period → t.counter ≤ t.config.period) ∧
    ∀ entry : Word, (t.startRun entry).counter = t.counter

/-- 60_exceptions.md R226: whether a step of a run returns Clock, and the counter after it, is a function of the counter
and the parameters before it, and of nothing else: the two steps may differ in every other part of their states and in
their own events. That Clock takes the place of those events is decision D14 (log entry 19). -/
def Obligations.PreemptionIsDeterministic : Prop :=
  ∀ s t s' t' : State, s.running = true → t.running = true → step s = .next s' → step t = .next t' →
    t.counter = s.counter → t.config = s.config →
    (t'.event = .clock ↔ s'.event = .clock) ∧ t'.counter = s'.counter

/-- 60_exceptions.md R223, R226: every run returns: within PERIOD + 1 steps, at least one, it is over with an event other
than None, unless it is refused (20_memory.md R66). -/
def Obligations.EveryRunReturnsWithinPeriod : Prop :=
  ∀ (entry : Word) (s : State),
    (∃ t, run entry s = .next t ∧ t.running = false ∧ t.event ≠ .none ∧
      s.cycles + 1 ≤ t.cycles ∧ t.cycles ≤ s.cycles + s.config.period + 1) ∨
    run entry s = .refused .wordPastPageEnd

/-- 60_exceptions.md R223, R230, R239: `run(entry)` is what PERIOD + 1 steps of the whole machine make of the started
run when the host has no further move: the steps after the run's return leave the state as the run returned it. -/
def Obligations.RunIsRepeatedSteps : Prop :=
  ∀ (entry : Word) (s : State), s.host = [] →
    Host.Core.run Sys2Proof.core (s.config.period + 1) (s.startRun entry) = run entry s

/-- 60_exceptions.md R224, 70_reset_and_hazards.md R261: an ECALL in the step at whose end the clock fires, by
either value of CLOCK_FIRE, is lost: the run returns Clock with pc past the ECALL. The override is decision D14, the
comparison decision D13 (log entries 13, 19). -/
def Obligations.ClockSwallowsAnEcall : Prop :=
  ∀ s : State, s.running = true → Runs s .ecall → Config.fires s.config (s.counter + 1) = true →
    ∃ t, step s = .next t ∧ t.event = .clock ∧ t.pc = s.pc + 4 ∧ t.counter = 0 ∧ t.running = false ∧
      t.regs = s.regs ∧ t.mem = s.mem

/-- 60_exceptions.md R224, 70_reset_and_hazards.md R262: a fault, an illegal word and EBREAK recur: when the host calls
run with the current pc, the same step raises the same event again. -/
def Obligations.EventRecursWhenResumed : Prop :=
  ∀ s t : State, singleStep s = .next t → t.event ≠ .none → t.event ≠ .ecall →
    singleStep (t.startRun t.pc) = .next { t with running := true }

/-- 60_exceptions.md R231 (the spec's own decision D16; the queue and the refusals are log entries 7, 10, 11): what each
move of the host does between runs, for every move, with the moves after it left to make. The bytes of an inserted page
are those of `State.insertPage`, of which InsertedPageHoldsItsBytes says every byte. -/
def Obligations.HostMovesBetweenRuns : Prop :=
  ∀ (s : State) (rest : List HostMove), s.running = false →
    let u : State := { s with host := rest, event := .none }
    (∀ entry, step { s with host := .run entry :: rest } = .next { u with pc := entry, running := true }) ∧
    (∀ n v, n ≤ 31 → step { s with host := .writeReg n v :: rest } = .next (u.writeReg (BitVec.ofNat 5 n) v)) ∧
    (∀ n v, 32 ≤ n → step { s with host := .writeReg n v :: rest } = .refused .registerIndexOutOfRange) ∧
    (∀ v, step { s with host := .writePc v :: rest } = .next { u with pc := v }) ∧
    (∀ vpn perm bytes,
      step { s with host := .insertPage vpn perm bytes :: rest } = .next (u.insertPage vpn perm bytes) ∧
      u.insertPage vpn perm bytes =
        { u with pages := (u.insertPage vpn perm bytes).pages, mem := (u.insertPage vpn perm bytes).mem } ∧
      translate (u.insertPage vpn perm bytes).pages vpn = some perm ∧
      ∀ v, v ≠ vpn → translate (u.insertPage vpn perm bytes).pages v = translate s.pages v) ∧
    (∀ vpn, step { s with host := .removePage vpn :: rest } = .next (u.removePage vpn) ∧
      u.removePage vpn = { u with pages := (u.removePage vpn).pages, mem := (u.removePage vpn).mem } ∧
      translate (u.removePage vpn).pages vpn = none ∧
      (∀ v, v ≠ vpn → translate (u.removePage vpn).pages v = translate s.pages v) ∧
      ∀ a, vpnOf a ≠ vpn → (u.removePage vpn).byteAt a = s.byteAt a) ∧
    (∀ vpn perm, translate s.pages vpn ≠ none →
      step { s with host := .setPerm vpn perm :: rest } =
        .next { u with pages := PageTable.insert s.pages vpn perm } ∧
      translate (PageTable.insert s.pages vpn perm) vpn = some perm ∧
      ∀ v, v ≠ vpn → translate (PageTable.insert s.pages vpn perm) v = translate s.pages v) ∧
    (∀ vpn perm, translate s.pages vpn = none →
      step { s with host := .setPerm vpn perm :: rest } = .refused .hostNoSuchPage) ∧
    (∀ a b, translate s.pages (vpnOf a) ≠ none →
      step { s with host := .writeByte a b :: rest } = .next { u with mem := s.mem.write a.toNat b }) ∧
    (∀ a b, translate s.pages (vpnOf a) = none →
      step { s with host := .writeByte a b :: rest } = .refused .hostNoSuchPage)

/-- 20_memory.md R54, R57 and log entry 4: an inserted page holds the bytes the host gave, 0 after them, and no byte of
another page changes.
The premise on the memory is the canonical form, which every step keeps (StepKeepsTheInvariant). -/
def Obligations.InsertedPageHoldsItsBytes : Prop :=
  ∀ (s : State) (vpn : Vpn) (perm : Perm) (bytes : List Byte) (a : Word), Memory.wf s.mem →
    (s.insertPage vpn perm bytes).byteAt a =
      if vpnOf a = vpn then some (bytes.getD (vpoOf a).toNat 0) else s.byteAt a

/-- 60_exceptions.md R239: with no run in progress and no move of the host to make, the engine is idle and all state
survives. -/
def Obligations.IdleEngineKeepsItsState : Prop :=
  ∀ s : State, s.running = false → s.host = [] → step s = .next s

/-- 20_memory.md R71, 60_exceptions.md R232: while a run is in progress what the host will do is neither seen nor
changed. -/
def Obligations.HostIsNotSeenDuringARun : Prop :=
  ∀ (s : State) (h : List HostMove), s.running = true →
    step { s with host := h } = mapNext (fun t => { t with host := h }) (step s)

/-- 10_state.md R38, 70_reset_and_hazards.md R250 (decisions D15, D20): right after reset x0 is 0, both counters are 0
and no run is in progress, for every choice of parameters. State.reset has the defaults of CLOCK_FIRE and SH_MASK16
of 00_scope.md R6, the spec's own decisions D13 and D10; that the parameters stand in State is log entry 3. -/
def Obligations.ResetValues : Prop :=
  (∀ c : Config, (State.built c).readReg 0 = 0 ∧ (State.built c).counter = 0 ∧ (State.built c).cycles = 0 ∧
    (State.built c).running = false ∧ (State.built c).config = c) ∧
  State.reset.counter = 0 ∧ State.reset.cycles = 0 ∧ State.reset.readReg 0 = 0 ∧
  State.reset.config.clockFire = .exceeds ∧ State.reset.config.shMask16 = false

/-! ### Decoding -/

/-- 30_encoding.md R92 to R100: decoding the encoding of a well-formed instruction gives it back, for all 39 and every
value of every operand. -/
def Obligations.DecodeOfEncode : Prop :=
  ∀ i : Instr, i.wellFormed = true → decodeWord (encode i) = .ok i

/-- 30_encoding.md R100, R105: a word that decodes is the encoding of what it decodes to, which is well-formed: "every
bit of every other format is a field or is matched". -/
def Obligations.EncodeOfDecode : Prop :=
  ∀ (w : Word) (i : Instr), decodeWord w = .ok i → i.wellFormed = true ∧ encode i = w

/-- 30_encoding.md R99 (full mask-and-match is the spec's own decision D3, log entry 16): no two rows match one word; a
word that matches a row decodes by that row, and a word that matches none is rejected. -/
def Obligations.DecodeFollowsTheTable : Prop :=
  (∀ (w : Word) (r r' : Row), r ∈ table → r' ∈ table → w &&& r.mask = r.value → w &&& r'.mask = r'.value →
    r.mnemonic = r'.mnemonic) ∧
  (∀ (w : Word) (r : Row), r ∈ table → w &&& r.mask = r.value → decodeWord w = .ok (r.read w)) ∧
  (∀ w : Word, (∀ r ∈ table, w &&& r.mask ≠ r.value) → decodeWord w = .error .illegal)

/-- 30_encoding.md R103 (the spec's own decisions D2, D3; log entry 16): the illegal spaces it lists. -/
def Obligations.ListedEncodingsAreIllegal : Prop :=
  ∀ w : Word,
    (w = 0 ∨ w = 0xFFFFFFFF → decodeWord w = .error .illegal) ∧
    (bits w 0 2 ≠ 0b11 → decodeWord w = .error .illegal) ∧
    (opcodeOf w = 0b0001111 → decodeWord w = .error .illegal) ∧
    (opcodeOf w = 0b1110011 → w ≠ 0x00000073 → w ≠ 0x00100073 → decodeWord w = .error .illegal) ∧
    (opcodeOf w = 0b0000011 → funct3Of w = 3 ∨ funct3Of w = 6 ∨ funct3Of w = 7 → decodeWord w = .error .illegal) ∧
    (opcodeOf w = 0b0100011 → 3 ≤ (funct3Of w).toNat → decodeWord w = .error .illegal) ∧
    (opcodeOf w = 0b1100011 → funct3Of w = 2 ∨ funct3Of w = 3 → decodeWord w = .error .illegal) ∧
    (opcodeOf w = 0b1100111 → funct3Of w ≠ 0 → decodeWord w = .error .illegal) ∧
    (opcodeOf w = 0b0010011 → funct3Of w = 1 → funct7Of w ≠ 0 → decodeWord w = .error .illegal) ∧
    (opcodeOf w = 0b0010011 → funct3Of w = 5 → funct7Of w ≠ 0 → funct7Of w ≠ 0b0100000 →
      decodeWord w = .error .illegal) ∧
    (opcodeOf w = 0b0110011 → funct7Of w ≠ 0 →
      ¬(funct7Of w = 0b0100000 ∧ (funct3Of w = 0 ∨ funct3Of w = 5)) → decodeWord w = .error .illegal) ∧
    (opcodeOf w ∉ [0b0110111, 0b0010111, 0b1101111, 0b1100111, 0b1100011, 0b0000011, 0b0100011, 0b0010011, 0b0110011,
      0b1110011] → decodeWord w = .error .illegal)

/-- 30_encoding.md R100, R107: the source's end-to-end program and one word of each other format, as the spec encodes
them, decode to the instructions they stand for. -/
def Obligations.SampleWordsDecode : Prop :=
  decodeWord 0x00500093 = .ok (.addi 1 0 5) ∧ decodeWord 0x00A00113 = .ok (.addi 2 0 10) ∧
  decodeWord 0x002081B3 = .ok (.add 3 1 2) ∧ decodeWord 0x00100073 = .ok .ebreak ∧
  decodeWord 0xABCDE2B7 = .ok (.lui 5 0xABCDE) ∧ decodeWord 0xFF9FF06F = .ok (.jal 0 (-8)) ∧
  decodeWord 0xFE209EE3 = .ok (.bne 1 2 (-4)) ∧ decodeWord 0xFE20AE23 = .ok (.sw 2 1 (-4)) ∧
  decodeWord 0xFFC0A283 = .ok (.lw 5 1 (-4)) ∧ decodeWord 0x4040D293 = .ok (.srai 5 1 4)
end

