-- ==== Sys2Proof/Laws/Decode.lean ====
section
/-! SUPPORT. Bit fields: what a mask keeps of each format, and what each field reads from it; from them, that the rows
of the decode table are disjoint and that a row's match decides the decoding. -/

namespace Sys2Proof

/-! ### What the three masks keep of one placed field -/

theorem place_and_keep {n : Nat} (w lo : Nat) (x : BitVec n) (m : BitVec w)
    (h : ∀ i, lo ≤ i → i < lo + n → i < w → m.getLsbD i = true) : place w lo x &&& m = place w lo x := by
  apply BitVec.eq_of_getLsbD_eq
  intro i hi
  simp only [place, BitVec.getLsbD_and, BitVec.getLsbD_shiftLeft, BitVec.getLsbD_setWidth]
  by_cases h1 : i < lo
  · simp [h1]
  · by_cases h2 : i < lo + n
    · simp [h i (by omega) h2 hi]
    · have : x.getLsbD (i - lo) = false := BitVec.getLsbD_of_ge x (i - lo) (by omega)
      simp [this]

theorem place_and_drop {n : Nat} (w lo : Nat) (x : BitVec n) (m : BitVec w)
    (h : ∀ i, lo ≤ i → i < lo + n → i < w → m.getLsbD i = false) : place w lo x &&& m = 0 := by
  apply BitVec.eq_of_getLsbD_eq
  intro i hi
  simp only [place, BitVec.getLsbD_and, BitVec.getLsbD_shiftLeft, BitVec.getLsbD_setWidth]
  by_cases h1 : i < lo
  · simp [h1]
  · by_cases h2 : i < lo + n
    · simp [h i (by omega) h2 hi]
    · have : x.getLsbD (i - lo) = false := BitVec.getLsbD_of_ge x (i - lo) (by omega)
      simp [this]

/-- `&&&` distributes over the fields of a word. -/
theorem or_and_mask (a b m : Word) : (a ||| b) &&& m = (a &&& m) ||| (b &&& m) := by
  ext i hi
  simp only [BitVec.getElem_and, BitVec.getElem_or]
  cases a[i] <;> cases b[i] <;> simp

theorem rFormat_mask (f7 rs2 rs1 f3 rd op) :
    rFormat f7 rs2 rs1 f3 rd op &&& 0xFE00707F = rFormat f7 0 0 f3 0 op := by
  simp only [rFormat, or_and_mask]
  rw [place_and_keep 32 25 f7 _ (by decide), place_and_drop 32 20 rs2 _ (by decide),
    place_and_drop 32 15 rs1 _ (by decide), place_and_keep 32 12 f3 _ (by decide),
    place_and_drop 32 7 rd _ (by decide), place_and_keep 32 0 op _ (by decide)]
  rfl

theorem iFormat_mask (imm rs1 f3 rd op) : iFormat imm rs1 f3 rd op &&& 0x707F = iFormat 0 0 f3 0 op := by
  simp only [iFormat, or_and_mask]
  rw [place_and_drop 32 20 imm _ (by decide),
    place_and_drop 32 15 rs1 _ (by decide), place_and_keep 32 12 f3 _ (by decide),
    place_and_drop 32 7 rd _ (by decide), place_and_keep 32 0 op _ (by decide)]
  rfl

theorem sFormat_mask (imm rs2 rs1 f3 op) : sFormat imm rs2 rs1 f3 op &&& 0x707F = sFormat 0 0 0 f3 op := by
  simp only [sFormat, or_and_mask]
  rw [place_and_drop 32 25 (imm.extractLsb' 5 7) _ (by decide), place_and_drop 32 20 rs2 _ (by decide),
    place_and_drop 32 15 rs1 _ (by decide), place_and_keep 32 12 f3 _ (by decide),
    place_and_drop 32 7 (imm.extractLsb' 0 5) _ (by decide), place_and_keep 32 0 op _ (by decide)]
  rfl

theorem bFormat_mask (off rs2 rs1 f3 op) : bFormat off rs2 rs1 f3 op &&& 0x707F = bFormat 0 0 0 f3 op := by
  simp only [bFormat, or_and_mask]
  rw [place_and_drop 32 31 (off.extractLsb' 12 1) _ (by decide), place_and_drop 32 25 (off.extractLsb' 5 6) _ (by decide),
    place_and_drop 32 20 rs2 _ (by decide), place_and_drop 32 15 rs1 _ (by decide),
    place_and_keep 32 12 f3 _ (by decide), place_and_drop 32 8 (off.extractLsb' 1 4) _ (by decide),
    place_and_drop 32 7 (off.extractLsb' 11 1) _ (by decide), place_and_keep 32 0 op _ (by decide)]
  rfl

theorem uFormat_mask (imm rd op) : uFormat imm rd op &&& 0x7F = uFormat 0 0 op := by
  simp only [uFormat, or_and_mask]
  rw [place_and_drop 32 12 imm _ (by decide), place_and_drop 32 7 rd _ (by decide),
    place_and_keep 32 0 op _ (by decide)]
  rfl

theorem jFormat_mask (off rd op) : jFormat off rd op &&& 0x7F = jFormat 0 0 op := by
  simp only [jFormat, or_and_mask]
  rw [place_and_drop 32 31 (off.extractLsb' 20 1) _ (by decide), place_and_drop 32 21 (off.extractLsb' 1 10) _ (by decide),
    place_and_drop 32 20 (off.extractLsb' 11 1) _ (by decide), place_and_drop 32 12 (off.extractLsb' 12 8) _ (by decide),
    place_and_drop 32 7 rd _ (by decide), place_and_keep 32 0 op _ (by decide)]
  rfl

/-! ### What a field reads from a placed field -/

theorem bits_or (a b : Word) (lo n : Nat) : bits (a ||| b) lo n = bits a lo n ||| bits b lo n := by
  ext i hi
  simp [bits]

theorem bits_place_same {n : Nat} (lo : Nat) (x : BitVec n) (h : lo + n ≤ 32) : bits (place 32 lo x) lo n = x := by
  apply BitVec.eq_of_getLsbD_eq
  intro i hi
  simp only [bits, place, BitVec.getLsbD_extractLsb', BitVec.getLsbD_shiftLeft, BitVec.getLsbD_setWidth]
  have h1 : lo + i < 32 := by omega
  have h2 : ¬lo + i < lo := by omega
  have h3 : i < 32 := by omega
  simp [hi, h1, h2, h3]

theorem bits_place_other {m : Nat} (lo n lo' : Nat) (x : BitVec m) (h : lo' + m ≤ lo ∨ lo + n ≤ lo') :
    bits (place 32 lo' x) lo n = 0 := by
  apply BitVec.eq_of_getLsbD_eq
  intro i hi
  simp only [bits, place, BitVec.getLsbD_extractLsb', BitVec.getLsbD_shiftLeft, BitVec.getLsbD_setWidth]
  rcases h with h | h
  · have : x.getLsbD (lo + i - lo') = false := BitVec.getLsbD_of_ge _ _ (by omega)
    simp [this]
  · have : lo + i < lo' := by omega
    simp [this]

/-! ### The immediates put together again -/

theorem immS_pieces (imm : BitVec 12) : place 12 5 (imm.extractLsb' 5 7) ||| place 12 0 (imm.extractLsb' 0 5) = imm := by
  unfold place
  ext i hi
  interval_cases i <;> simp

theorem immB_pieces (off : BitVec 13) (h : evenOffset off = true) :
    place 13 12 (off.extractLsb' 12 1) ||| place 13 11 (off.extractLsb' 11 1) ||| place 13 5 (off.extractLsb' 5 6) |||
      place 13 1 (off.extractLsb' 1 4) = off := by
  have h0 : off[0] = false := by simpa [evenOffset] using h
  unfold place
  ext i hi
  interval_cases i <;> simp [h0]

theorem immJ_pieces (off : BitVec 21) (h : evenOffset off = true) :
    place 21 20 (off.extractLsb' 20 1) ||| place 21 12 (off.extractLsb' 12 8) ||| place 21 11 (off.extractLsb' 11 1) |||
      place 21 1 (off.extractLsb' 1 10) = off := by
  have h0 : off[0] = false := by simpa [evenOffset] using h
  unfold place
  ext i hi
  interval_cases i <;> simp [h0]

/-! ### The fields of each format -/

theorem rdOf_rFormat (f7 rs2 rs1 f3 rd op) : rdOf (rFormat f7 rs2 rs1 f3 rd op) = rd := by
  simp only [rdOf, rFormat, bits_or]
  rw [bits_place_other 7 5 25 f7 (by decide), bits_place_other 7 5 20 rs2 (by decide),
    bits_place_other 7 5 15 rs1 (by decide), bits_place_other 7 5 12 f3 (by decide), bits_place_same 7 rd (by decide),
    bits_place_other 7 5 0 op (by decide)]
  simp

theorem rs1Of_rFormat (f7 rs2 rs1 f3 rd op) : rs1Of (rFormat f7 rs2 rs1 f3 rd op) = rs1 := by
  simp only [rs1Of, rFormat, bits_or]
  rw [bits_place_other 15 5 25 f7 (by decide), bits_place_other 15 5 20 rs2 (by decide),
    bits_place_same 15 rs1 (by decide), bits_place_other 15 5 12 f3 (by decide), bits_place_other 15 5 7 rd (by decide),
    bits_place_other 15 5 0 op (by decide)]
  simp

theorem rs2Of_rFormat (f7 rs2 rs1 f3 rd op) : rs2Of (rFormat f7 rs2 rs1 f3 rd op) = rs2 := by
  simp only [rs2Of, rFormat, bits_or]
  rw [bits_place_other 20 5 25 f7 (by decide), bits_place_same 20 rs2 (by decide),
    bits_place_other 20 5 15 rs1 (by decide), bits_place_other 20 5 12 f3 (by decide),
    bits_place_other 20 5 7 rd (by decide), bits_place_other 20 5 0 op (by decide)]
  simp

theorem shamtOf_rFormat (f7 rs2 rs1 f3 rd op) : shamtOf (rFormat f7 rs2 rs1 f3 rd op) = rs2 :=
  rs2Of_rFormat f7 rs2 rs1 f3 rd op

theorem rdOf_iFormat (imm rs1 f3 rd op) : rdOf (iFormat imm rs1 f3 rd op) = rd := by
  simp only [rdOf, iFormat, bits_or]
  rw [bits_place_other 7 5 20 imm (by decide), bits_place_other 7 5 15 rs1 (by decide),
    bits_place_other 7 5 12 f3 (by decide), bits_place_same 7 rd (by decide), bits_place_other 7 5 0 op (by decide)]
  simp

theorem rs1Of_iFormat (imm rs1 f3 rd op) : rs1Of (iFormat imm rs1 f3 rd op) = rs1 := by
  simp only [rs1Of, iFormat, bits_or]
  rw [bits_place_other 15 5 20 imm (by decide), bits_place_same 15 rs1 (by decide),
    bits_place_other 15 5 12 f3 (by decide), bits_place_other 15 5 7 rd (by decide),
    bits_place_other 15 5 0 op (by decide)]
  simp

theorem immI_iFormat (imm rs1 f3 rd op) : immI (iFormat imm rs1 f3 rd op) = imm := by
  simp only [immI, iFormat, bits_or]
  rw [bits_place_same 20 imm (by decide), bits_place_other 20 12 15 rs1 (by decide),
    bits_place_other 20 12 12 f3 (by decide), bits_place_other 20 12 7 rd (by decide),
    bits_place_other 20 12 0 op (by decide)]
  simp

theorem rs1Of_sFormat (imm rs2 rs1 f3 op) : rs1Of (sFormat imm rs2 rs1 f3 op) = rs1 :=
  rs1Of_rFormat _ rs2 rs1 f3 _ op

theorem rs2Of_sFormat (imm rs2 rs1 f3 op) : rs2Of (sFormat imm rs2 rs1 f3 op) = rs2 :=
  rs2Of_rFormat _ rs2 rs1 f3 _ op

theorem funct7Of_rFormat (f7 rs2 rs1 f3 rd op) : bits (rFormat f7 rs2 rs1 f3 rd op) 25 7 = f7 := by
  simp only [rFormat, bits_or]
  rw [bits_place_same 25 f7 (by decide), bits_place_other 25 7 20 rs2 (by decide),
    bits_place_other 25 7 15 rs1 (by decide), bits_place_other 25 7 12 f3 (by decide),
    bits_place_other 25 7 7 rd (by decide), bits_place_other 25 7 0 op (by decide)]
  simp

theorem immS_sFormat (imm rs2 rs1 f3 op) : immS (sFormat imm rs2 rs1 f3 op) = imm := by
  have h1 : bits (sFormat imm rs2 rs1 f3 op) 25 7 = imm.extractLsb' 5 7 := funct7Of_rFormat _ rs2 rs1 f3 _ op
  have h2 : bits (sFormat imm rs2 rs1 f3 op) 7 5 = imm.extractLsb' 0 5 := rdOf_rFormat _ rs2 rs1 f3 _ op
  rw [immS, h1, h2, immS_pieces]

theorem rs1Of_bFormat (off rs2 rs1 f3 op) : rs1Of (bFormat off rs2 rs1 f3 op) = rs1 := by
  simp only [rs1Of, bFormat, bits_or]
  rw [bits_place_other 15 5 31 _ (by decide), bits_place_other 15 5 25 _ (by decide),
    bits_place_other 15 5 20 rs2 (by decide), bits_place_same 15 rs1 (by decide), bits_place_other 15 5 12 f3 (by decide),
    bits_place_other 15 5 8 _ (by decide), bits_place_other 15 5 7 _ (by decide), bits_place_other 15 5 0 op (by decide)]
  simp

theorem rs2Of_bFormat (off rs2 rs1 f3 op) : rs2Of (bFormat off rs2 rs1 f3 op) = rs2 := by
  simp only [rs2Of, bFormat, bits_or]
  rw [bits_place_other 20 5 31 _ (by decide), bits_place_other 20 5 25 _ (by decide),
    bits_place_same 20 rs2 (by decide), bits_place_other 20 5 15 rs1 (by decide), bits_place_other 20 5 12 f3 (by decide),
    bits_place_other 20 5 8 _ (by decide), bits_place_other 20 5 7 _ (by decide), bits_place_other 20 5 0 op (by decide)]
  simp

theorem immB_bFormat (off rs2 rs1 f3 op) (h : evenOffset off = true) : immB (bFormat off rs2 rs1 f3 op) = off := by
  have h31 : bits (bFormat off rs2 rs1 f3 op) 31 1 = off.extractLsb' 12 1 := by
    simp only [bFormat, bits_or]
    rw [bits_place_same 31 _ (by decide), bits_place_other 31 1 25 _ (by decide), bits_place_other 31 1 20 _ (by decide),
      bits_place_other 31 1 15 _ (by decide), bits_place_other 31 1 12 _ (by decide), bits_place_other 31 1 8 _ (by decide),
      bits_place_other 31 1 7 _ (by decide), bits_place_other 31 1 0 _ (by decide)]
    simp
  have h7 : bits (bFormat off rs2 rs1 f3 op) 7 1 = off.extractLsb' 11 1 := by
    simp only [bFormat, bits_or]
    rw [bits_place_other 7 1 31 _ (by decide), bits_place_other 7 1 25 _ (by decide), bits_place_other 7 1 20 _ (by decide),
      bits_place_other 7 1 15 _ (by decide), bits_place_other 7 1 12 _ (by decide), bits_place_other 7 1 8 _ (by decide),
      bits_place_same 7 _ (by decide), bits_place_other 7 1 0 _ (by decide)]
    simp
  have h25 : bits (bFormat off rs2 rs1 f3 op) 25 6 = off.extractLsb' 5 6 := by
    simp only [bFormat, bits_or]
    rw [bits_place_other 25 6 31 _ (by decide), bits_place_same 25 _ (by decide), bits_place_other 25 6 20 _ (by decide),
      bits_place_other 25 6 15 _ (by decide), bits_place_other 25 6 12 _ (by decide), bits_place_other 25 6 8 _ (by decide),
      bits_place_other 25 6 7 _ (by decide), bits_place_other 25 6 0 _ (by decide)]
    simp
  have h8 : bits (bFormat off rs2 rs1 f3 op) 8 4 = off.extractLsb' 1 4 := by
    simp only [bFormat, bits_or]
    rw [bits_place_other 8 4 31 _ (by decide), bits_place_other 8 4 25 _ (by decide), bits_place_other 8 4 20 _ (by decide),
      bits_place_other 8 4 15 _ (by decide), bits_place_other 8 4 12 _ (by decide), bits_place_same 8 _ (by decide),
      bits_place_other 8 4 7 _ (by decide), bits_place_other 8 4 0 _ (by decide)]
    simp
  rw [immB, h31, h7, h25, h8, immB_pieces off h]

theorem rdOf_uFormat (imm rd op) : rdOf (uFormat imm rd op) = rd := by
  simp only [rdOf, uFormat, bits_or]
  rw [bits_place_other 7 5 12 imm (by decide), bits_place_same 7 rd (by decide), bits_place_other 7 5 0 op (by decide)]
  simp

theorem immU_uFormat (imm rd op) : immU (uFormat imm rd op) = imm := by
  simp only [immU, uFormat, bits_or]
  rw [bits_place_same 12 imm (by decide), bits_place_other 12 20 7 rd (by decide), bits_place_other 12 20 0 op (by decide)]
  simp

theorem rdOf_jFormat (off rd op) : rdOf (jFormat off rd op) = rd := by
  simp only [rdOf, jFormat, bits_or]
  rw [bits_place_other 7 5 31 _ (by decide), bits_place_other 7 5 21 _ (by decide), bits_place_other 7 5 20 _ (by decide),
    bits_place_other 7 5 12 _ (by decide), bits_place_same 7 rd (by decide), bits_place_other 7 5 0 op (by decide)]
  simp

theorem immJ_jFormat (off rd op) (h : evenOffset off = true) : immJ (jFormat off rd op) = off := by
  have h31 : bits (jFormat off rd op) 31 1 = off.extractLsb' 20 1 := by
    simp only [jFormat, bits_or]
    rw [bits_place_same 31 _ (by decide), bits_place_other 31 1 21 _ (by decide), bits_place_other 31 1 20 _ (by decide),
      bits_place_other 31 1 12 _ (by decide), bits_place_other 31 1 7 _ (by decide), bits_place_other 31 1 0 _ (by decide)]
    simp
  have h12 : bits (jFormat off rd op) 12 8 = off.extractLsb' 12 8 := by
    simp only [jFormat, bits_or]
    rw [bits_place_other 12 8 31 _ (by decide), bits_place_other 12 8 21 _ (by decide), bits_place_other 12 8 20 _ (by decide),
      bits_place_same 12 _ (by decide), bits_place_other 12 8 7 _ (by decide), bits_place_other 12 8 0 _ (by decide)]
    simp
  have h20 : bits (jFormat off rd op) 20 1 = off.extractLsb' 11 1 := by
    simp only [jFormat, bits_or]
    rw [bits_place_other 20 1 31 _ (by decide), bits_place_other 20 1 21 _ (by decide), bits_place_same 20 _ (by decide),
      bits_place_other 20 1 12 _ (by decide), bits_place_other 20 1 7 _ (by decide), bits_place_other 20 1 0 _ (by decide)]
    simp
  have h21 : bits (jFormat off rd op) 21 10 = off.extractLsb' 1 10 := by
    simp only [jFormat, bits_or]
    rw [bits_place_other 21 10 31 _ (by decide), bits_place_same 21 _ (by decide), bits_place_other 21 10 20 _ (by decide),
      bits_place_other 21 10 12 _ (by decide), bits_place_other 21 10 7 _ (by decide), bits_place_other 21 10 0 _ (by decide)]
    simp
  rw [immJ, h31, h12, h20, h21, immJ_pieces off h]

/-! ### The branches' and JAL's immediates are even (R97) -/

theorem evenOffset_immB (w : Word) : evenOffset (immB w) = true := by
  simp [evenOffset, immB, place]

theorem evenOffset_immJ (w : Word) : evenOffset (immJ w) = true := by
  simp [evenOffset, immJ, place]

/-! ### Little-endian bytes of a Word -/

theorem wordOfBytes_bytesOf (w : Word) : wordOfBytes (byteOf w 0) (byteOf w 1) (byteOf w 2) (byteOf w 3) = w := by
  unfold wordOfBytes byteOf bits place
  ext i hi
  interval_cases i <;> simp

/-! ### The table (R99, R100) -/

theorem find?_of_pairwise {α : Type} {p : α → Bool} {l : List α} {a : α} (ha : a ∈ l) (hp : p a = true)
    (h : l.Pairwise (fun x y => ¬(p x = true ∧ p y = true))) : l.find? p = some a := by
  induction l with
  | nil => cases ha
  | cons x l ih =>
    obtain ⟨hx, hl⟩ := List.pairwise_cons.1 h
    rcases List.mem_cons.1 ha with rfl | ha'
    · rw [List.find?_cons, hp]
    · have : p x = false := by
        rw [← Bool.not_eq_true]
        exact fun e => hx a ha' ⟨e, hp⟩
      rw [List.find?_cons, this]
      exact ih ha' hl

/-- No two rows of the table can match one word (30_encoding.md R99). -/
theorem table_disjoint : table.Pairwise (fun r q => r.value &&& q.mask ≠ q.value &&& r.mask) := by
  decide

theorem matches_iff (r : Row) (w : Word) : r.matches w = true ↔ w &&& r.mask = r.value := by simp [Row.matches]

theorem table_matches_once (w : Word) : table.Pairwise (fun r q => ¬(r.matches w = true ∧ q.matches w = true)) := by
  refine table_disjoint.imp ?_
  rintro r q hne ⟨hr, hq⟩
  rw [matches_iff] at hr hq
  apply hne
  rw [← hr, ← hq, BitVec.and_assoc, BitVec.and_assoc, BitVec.and_comm r.mask]

/-- A word decodes by the row it matches. -/
theorem decodeWord_of_row {w : Word} {r : Row} (hr : r ∈ table) (h : w &&& r.mask = r.value) :
    decodeWord w = .ok (r.read w) := by
  rw [decodeWord, find?_of_pairwise hr ((matches_iff r w).2 h) (table_matches_once w)]

theorem decodeWord_illegal {w : Word} (h : ∀ r ∈ table, w &&& r.mask ≠ r.value) : decodeWord w = .error .illegal := by
  rw [decodeWord, List.find?_eq_none.2]
  intro r hr
  simpa [Row.matches] using h r hr

/-- A word that decodes matches a row and is read by it. -/
theorem decodeWord_inv {w : Word} {i : Instr} (h : decodeWord w = .ok i) :
    ∃ r ∈ table, w &&& r.mask = r.value ∧ r.read w = i := by
  rw [decodeWord] at h
  split at h
  · rename_i r hf
    cases h
    exact ⟨r, List.mem_of_find?_eq_some hf, (matches_iff r w).1 (List.find?_some (p := fun r : Row => r.matches w) hf), rfl⟩
  · cases h

/-- Every instruction's row is in the table. -/
theorem row_mem (i : Instr) : i.row ∈ table := by
  cases i <;> simp [Instr.row, table, aluImmRows, aluRegRows, memRows, ctrlRows]

/-! ### A word is its fields (R105) -/

/-- A word whose bits `m` are known determines the fields inside `m`. -/

theorem bits_of_masked {w v m : Word} (h : w &&& m = v) (lo n : Nat) (hm : ∀ i, i < n → m.getLsbD (lo + i) = true) :
    bits w lo n = bits v lo n := by
  apply BitVec.eq_of_getLsbD_eq
  intro i hi
  simp only [bits, BitVec.getLsbD_extractLsb', hi, ← h, BitVec.getLsbD_and, hm i hi, Bool.and_true]


theorem rFormat_pieces (w : Word) : rFormat (funct7Of w) (rs2Of w) (rs1Of w) (funct3Of w) (rdOf w) (opcodeOf w) = w := by
  unfold rFormat funct7Of rs2Of rs1Of funct3Of rdOf opcodeOf bits place
  ext i hi
  interval_cases i <;> simp

theorem iFormat_pieces (w : Word) : iFormat (immI w) (rs1Of w) (funct3Of w) (rdOf w) (opcodeOf w) = w := by
  unfold iFormat immI rs1Of funct3Of rdOf opcodeOf bits place
  ext i hi
  interval_cases i <;> simp

theorem immS_bits (w : Word) : (immS w).extractLsb' 5 7 = bits w 25 7 ∧ (immS w).extractLsb' 0 5 = bits w 7 5 := by
  refine ⟨?_, ?_⟩ <;> (unfold immS bits place; ext i hi; interval_cases i <;> simp)

theorem sFormat_pieces (w : Word) : sFormat (immS w) (rs2Of w) (rs1Of w) (funct3Of w) (opcodeOf w) = w := by
  obtain ⟨h1, h2⟩ := immS_bits w
  rw [sFormat, h1, h2]
  unfold rs2Of rs1Of funct3Of opcodeOf bits place
  ext i hi
  interval_cases i <;> simp

theorem immB_bits (w : Word) : (immB w).extractLsb' 12 1 = bits w 31 1 ∧ (immB w).extractLsb' 5 6 = bits w 25 6 ∧
    (immB w).extractLsb' 1 4 = bits w 8 4 ∧ (immB w).extractLsb' 11 1 = bits w 7 1 := by
  refine ⟨?_, ?_, ?_, ?_⟩ <;> (unfold immB bits place; ext i hi; interval_cases i <;> simp)

theorem bFormat_pieces (w : Word) : bFormat (immB w) (rs2Of w) (rs1Of w) (funct3Of w) (opcodeOf w) = w := by
  obtain ⟨h1, h2, h3, h4⟩ := immB_bits w
  rw [bFormat, h1, h2, h3, h4]
  unfold rs2Of rs1Of funct3Of opcodeOf bits place
  ext i hi
  interval_cases i <;> simp

theorem immJ_bits (w : Word) : (immJ w).extractLsb' 20 1 = bits w 31 1 ∧ (immJ w).extractLsb' 1 10 = bits w 21 10 ∧
    (immJ w).extractLsb' 11 1 = bits w 20 1 ∧ (immJ w).extractLsb' 12 8 = bits w 12 8 := by
  refine ⟨?_, ?_, ?_, ?_⟩ <;> (unfold immJ bits place; ext i hi; interval_cases i <;> simp)

theorem jFormat_pieces (w : Word) : jFormat (immJ w) (rdOf w) (opcodeOf w) = w := by
  obtain ⟨h1, h2, h3, h4⟩ := immJ_bits w
  rw [jFormat, h1, h2, h3, h4]
  unfold rdOf opcodeOf bits place
  ext i hi
  interval_cases i <;> simp

theorem uFormat_pieces (w : Word) : uFormat (immU w) (rdOf w) (opcodeOf w) = w := by
  unfold uFormat immU rdOf opcodeOf bits place
  ext i hi
  interval_cases i <;> simp

/-! The word of a format is the format's encoding of its own fields once mask and value fix opcode, funct3 and funct7. -/

theorem rFormat_of_masked {op : BitVec 7} {f3 : BitVec 3} {f7 : BitVec 7} {w v : Word}
    (h : w &&& 0xFE00707F = v) (h1 : bits v 0 7 = op) (h2 : bits v 12 3 = f3) (h3 : bits v 25 7 = f7) :
    rFormat f7 (rs2Of w) (rs1Of w) f3 (rdOf w) op = w := by
  have := rFormat_pieces w
  rwa [show opcodeOf w = op from (bits_of_masked h 0 7 (by decide)).trans h1,
    show funct3Of w = f3 from (bits_of_masked h 12 3 (by decide)).trans h2,
    show funct7Of w = f7 from (bits_of_masked h 25 7 (by decide)).trans h3] at this

theorem iFormat_of_masked {op : BitVec 7} {f3 : BitVec 3} {w v : Word} (h : w &&& 0x707F = v) (h1 : bits v 0 7 = op) (h2 : bits v 12 3 = f3) :
    iFormat (immI w) (rs1Of w) f3 (rdOf w) op = w := by
  have := iFormat_pieces w
  rwa [show opcodeOf w = op from (bits_of_masked h 0 7 (by decide)).trans h1,
    show funct3Of w = f3 from (bits_of_masked h 12 3 (by decide)).trans h2] at this

theorem sFormat_of_masked {op : BitVec 7} {f3 : BitVec 3} {w v : Word} (h : w &&& 0x707F = v) (h1 : bits v 0 7 = op) (h2 : bits v 12 3 = f3) :
    sFormat (immS w) (rs2Of w) (rs1Of w) f3 op = w := by
  have := sFormat_pieces w
  rwa [show opcodeOf w = op from (bits_of_masked h 0 7 (by decide)).trans h1,
    show funct3Of w = f3 from (bits_of_masked h 12 3 (by decide)).trans h2] at this

theorem bFormat_of_masked {op : BitVec 7} {f3 : BitVec 3} {w v : Word} (h : w &&& 0x707F = v) (h1 : bits v 0 7 = op) (h2 : bits v 12 3 = f3) :
    bFormat (immB w) (rs2Of w) (rs1Of w) f3 op = w := by
  have := bFormat_pieces w
  rwa [show opcodeOf w = op from (bits_of_masked h 0 7 (by decide)).trans h1,
    show funct3Of w = f3 from (bits_of_masked h 12 3 (by decide)).trans h2] at this

theorem uFormat_of_masked {op : BitVec 7} {w v : Word} (h : w &&& 0x7F = v) (h1 : bits v 0 7 = op) :
    uFormat (immU w) (rdOf w) op = w := by
  have := uFormat_pieces w
  rwa [show opcodeOf w = op from (bits_of_masked h 0 7 (by decide)).trans h1] at this

theorem jFormat_of_masked {op : BitVec 7} {w v : Word} (h : w &&& 0x7F = v) (h1 : bits v 0 7 = op) :
    jFormat (immJ w) (rdOf w) op = w := by
  have := jFormat_pieces w
  rwa [show opcodeOf w = op from (bits_of_masked h 0 7 (by decide)).trans h1] at this

end Sys2Proof
end

