-- ==== Sys2Proof/Laws/State.lean ====
section
/-! SUPPORT. One lemma for each field of State under each shared update, so that no later proof unfolds one; and what
the registers read as after each update. -/

namespace Sys2Proof.Machine

/-! ### writeReg -/

@[simp] theorem State.writeReg_pc (s : State) (r : Reg) (v : Word) : (s.writeReg r v).pc = s.pc := by unfold State.writeReg; split <;> rfl
@[simp] theorem State.writeReg_config (s : State) (r : Reg) (v : Word) : (s.writeReg r v).config = s.config := by unfold State.writeReg; split <;> rfl
@[simp] theorem State.writeReg_counter (s : State) (r : Reg) (v : Word) : (s.writeReg r v).counter = s.counter := by unfold State.writeReg; split <;> rfl
@[simp] theorem State.writeReg_cycles (s : State) (r : Reg) (v : Word) : (s.writeReg r v).cycles = s.cycles := by unfold State.writeReg; split <;> rfl
@[simp] theorem State.writeReg_pages (s : State) (r : Reg) (v : Word) : (s.writeReg r v).pages = s.pages := by unfold State.writeReg; split <;> rfl
@[simp] theorem State.writeReg_mem (s : State) (r : Reg) (v : Word) : (s.writeReg r v).mem = s.mem := by unfold State.writeReg; split <;> rfl
@[simp] theorem State.writeReg_event (s : State) (r : Reg) (v : Word) : (s.writeReg r v).event = s.event := by unfold State.writeReg; split <;> rfl
@[simp] theorem State.writeReg_running (s : State) (r : Reg) (v : Word) : (s.writeReg r v).running = s.running := by unfold State.writeReg; split <;> rfl
@[simp] theorem State.writeReg_host (s : State) (r : Reg) (v : Word) : (s.writeReg r v).host = s.host := by unfold State.writeReg; split <;> rfl

/-! ### raise -/

@[simp] theorem State.raise_regs (s : State) (e : Event) : (s.raise e).regs = s.regs := rfl
@[simp] theorem State.raise_pc (s : State) (e : Event) : (s.raise e).pc = s.pc := rfl
@[simp] theorem State.raise_config (s : State) (e : Event) : (s.raise e).config = s.config := rfl
@[simp] theorem State.raise_counter (s : State) (e : Event) : (s.raise e).counter = s.counter := rfl
@[simp] theorem State.raise_cycles (s : State) (e : Event) : (s.raise e).cycles = s.cycles := rfl
@[simp] theorem State.raise_pages (s : State) (e : Event) : (s.raise e).pages = s.pages := rfl
@[simp] theorem State.raise_mem (s : State) (e : Event) : (s.raise e).mem = s.mem := rfl
@[simp] theorem State.raise_event (s : State) (e : Event) : (s.raise e).event = e := rfl
@[simp] theorem State.raise_running (s : State) (e : Event) : (s.raise e).running = s.running := rfl
@[simp] theorem State.raise_host (s : State) (e : Event) : (s.raise e).host = s.host := rfl

/-! ### jump -/

@[simp] theorem State.jump_regs (s : State) (t : Word) : (s.jump t).regs = s.regs := rfl
@[simp] theorem State.jump_pc (s : State) (t : Word) : (s.jump t).pc = t := rfl
@[simp] theorem State.jump_config (s : State) (t : Word) : (s.jump t).config = s.config := rfl
@[simp] theorem State.jump_counter (s : State) (t : Word) : (s.jump t).counter = s.counter := rfl
@[simp] theorem State.jump_cycles (s : State) (t : Word) : (s.jump t).cycles = s.cycles := rfl
@[simp] theorem State.jump_pages (s : State) (t : Word) : (s.jump t).pages = s.pages := rfl
@[simp] theorem State.jump_mem (s : State) (t : Word) : (s.jump t).mem = s.mem := rfl
@[simp] theorem State.jump_event (s : State) (t : Word) : (s.jump t).event = .none := rfl
@[simp] theorem State.jump_running (s : State) (t : Word) : (s.jump t).running = s.running := rfl
@[simp] theorem State.jump_host (s : State) (t : Word) : (s.jump t).host = s.host := rfl

/-! ### finish -/

@[simp] theorem State.finish_regs (s : State) : (s.finish).regs = s.regs := rfl
@[simp] theorem State.finish_pc (s : State) : (s.finish).pc = s.pc + 4 := rfl
@[simp] theorem State.finish_config (s : State) : (s.finish).config = s.config := rfl
@[simp] theorem State.finish_counter (s : State) : (s.finish).counter = s.counter := rfl
@[simp] theorem State.finish_cycles (s : State) : (s.finish).cycles = s.cycles := rfl
@[simp] theorem State.finish_pages (s : State) : (s.finish).pages = s.pages := rfl
@[simp] theorem State.finish_mem (s : State) : (s.finish).mem = s.mem := rfl
@[simp] theorem State.finish_event (s : State) : (s.finish).event = .none := rfl
@[simp] theorem State.finish_running (s : State) : (s.finish).running = s.running := rfl
@[simp] theorem State.finish_host (s : State) : (s.finish).host = s.host := rfl

/-! ### startRun -/

@[simp] theorem State.startRun_regs (s : State) (entry : Word) : (s.startRun entry).regs = s.regs := rfl
@[simp] theorem State.startRun_pc (s : State) (entry : Word) : (s.startRun entry).pc = entry := rfl
@[simp] theorem State.startRun_config (s : State) (entry : Word) : (s.startRun entry).config = s.config := rfl
@[simp] theorem State.startRun_counter (s : State) (entry : Word) : (s.startRun entry).counter = s.counter := rfl
@[simp] theorem State.startRun_cycles (s : State) (entry : Word) : (s.startRun entry).cycles = s.cycles := rfl
@[simp] theorem State.startRun_pages (s : State) (entry : Word) : (s.startRun entry).pages = s.pages := rfl
@[simp] theorem State.startRun_mem (s : State) (entry : Word) : (s.startRun entry).mem = s.mem := rfl
@[simp] theorem State.startRun_event (s : State) (entry : Word) : (s.startRun entry).event = .none := rfl
@[simp] theorem State.startRun_running (s : State) (entry : Word) : (s.startRun entry).running = true := rfl
@[simp] theorem State.startRun_host (s : State) (entry : Word) : (s.startRun entry).host = s.host := rfl

/-! ### afterStep: the fields the run loop leaves alone, and the cycle counter -/

@[simp] theorem State.afterStep_regs (s : State) : (s.afterStep).regs = s.regs := by unfold State.afterStep; split <;> rfl
@[simp] theorem State.afterStep_pc (s : State) : (s.afterStep).pc = s.pc := by unfold State.afterStep; split <;> rfl
@[simp] theorem State.afterStep_config (s : State) : (s.afterStep).config = s.config := by unfold State.afterStep; split <;> rfl
@[simp] theorem State.afterStep_cycles (s : State) : (s.afterStep).cycles = s.cycles + 1 := by unfold State.afterStep; split <;> rfl
@[simp] theorem State.afterStep_pages (s : State) : (s.afterStep).pages = s.pages := by unfold State.afterStep; split <;> rfl
@[simp] theorem State.afterStep_mem (s : State) : (s.afterStep).mem = s.mem := by unfold State.afterStep; split <;> rfl
@[simp] theorem State.afterStep_host (s : State) : (s.afterStep).host = s.host := by unfold State.afterStep; split <;> rfl

/-! ### insertPage -/

@[simp] theorem State.insertPage_regs (s : State) (v : Vpn) (p : Perm) (bs : List Byte) : (s.insertPage v p bs).regs = s.regs := rfl
@[simp] theorem State.insertPage_pc (s : State) (v : Vpn) (p : Perm) (bs : List Byte) : (s.insertPage v p bs).pc = s.pc := rfl
@[simp] theorem State.insertPage_config (s : State) (v : Vpn) (p : Perm) (bs : List Byte) : (s.insertPage v p bs).config = s.config := rfl
@[simp] theorem State.insertPage_counter (s : State) (v : Vpn) (p : Perm) (bs : List Byte) : (s.insertPage v p bs).counter = s.counter := rfl
@[simp] theorem State.insertPage_cycles (s : State) (v : Vpn) (p : Perm) (bs : List Byte) : (s.insertPage v p bs).cycles = s.cycles := rfl
@[simp] theorem State.insertPage_pages (s : State) (v : Vpn) (p : Perm) (bs : List Byte) : (s.insertPage v p bs).pages = PageTable.insert s.pages v p := rfl
@[simp] theorem State.insertPage_mem (s : State) (v : Vpn) (p : Perm) (bs : List Byte) : (s.insertPage v p bs).mem = (s.mem.clearPage v).writeBytes (pageBase v) (bs.take 4096) := rfl
@[simp] theorem State.insertPage_event (s : State) (v : Vpn) (p : Perm) (bs : List Byte) : (s.insertPage v p bs).event = s.event := rfl
@[simp] theorem State.insertPage_running (s : State) (v : Vpn) (p : Perm) (bs : List Byte) : (s.insertPage v p bs).running = s.running := rfl
@[simp] theorem State.insertPage_host (s : State) (v : Vpn) (p : Perm) (bs : List Byte) : (s.insertPage v p bs).host = s.host := rfl

/-! ### removePage -/

@[simp] theorem State.removePage_regs (s : State) (v : Vpn) : (s.removePage v).regs = s.regs := rfl
@[simp] theorem State.removePage_pc (s : State) (v : Vpn) : (s.removePage v).pc = s.pc := rfl
@[simp] theorem State.removePage_config (s : State) (v : Vpn) : (s.removePage v).config = s.config := rfl
@[simp] theorem State.removePage_counter (s : State) (v : Vpn) : (s.removePage v).counter = s.counter := rfl
@[simp] theorem State.removePage_cycles (s : State) (v : Vpn) : (s.removePage v).cycles = s.cycles := rfl
@[simp] theorem State.removePage_pages (s : State) (v : Vpn) : (s.removePage v).pages = PageTable.remove s.pages v := rfl
@[simp] theorem State.removePage_mem (s : State) (v : Vpn) : (s.removePage v).mem = s.mem.clearPage v := rfl
@[simp] theorem State.removePage_event (s : State) (v : Vpn) : (s.removePage v).event = s.event := rfl
@[simp] theorem State.removePage_running (s : State) (v : Vpn) : (s.removePage v).running = s.running := rfl
@[simp] theorem State.removePage_host (s : State) (v : Vpn) : (s.removePage v).host = s.host := rfl

/-! ### The clock's two outcomes -/

theorem State.afterStep_fires (s : State) (h : Config.fires s.config (s.counter + 1) = true) :
    s.afterStep = { s with cycles := s.cycles + 1, counter := 0, event := .clock, running := false } := by
  simp [State.afterStep, h]

theorem State.afterStep_quiet (s : State) (h : Config.fires s.config (s.counter + 1) = false) :
    s.afterStep =
      { s with cycles := s.cycles + 1, counter := s.counter + 1, running := s.running && decide (s.event = .none) } := by
  simp [State.afterStep, h]

/-! ### Registers -/

/-- x0 reads 0 (R22); stated at the literal form `simp` keeps. -/
@[simp] theorem State.readReg_zero (s : State) : s.readReg 0#5 = 0#32 := rfl

/-- Reading depends on the registers alone. -/
theorem State.readReg_congr {s t : State} (h : t.regs = s.regs) (r : Reg) : t.readReg r = s.readReg r := by
  simp only [State.readReg, h]

theorem State.writeReg_zero (s : State) (v : Word) : s.writeReg 0 v = s := if_pos rfl

theorem State.readReg_writeReg_same (s : State) (r : Reg) (v : Word) (h : r ≠ 0) : (s.writeReg r v).readReg r = v := by
  rw [State.readReg, State.writeReg, if_neg h]
  simp only [if_neg h, Vector.getElem_set_self]

/-- Two different registers other than x0 stand at different indexes. -/
theorem Reg.index_ne {q r : Reg} (hq : q ≠ 0) (hr : r ≠ 0) (h : q ≠ r) : r.toNat - 1 ≠ q.toNat - 1 := by
  have h0 : q.toNat ≠ 0 := fun e => hq (BitVec.eq_of_toNat_eq (by simpa using e))
  have h1 : r.toNat ≠ 0 := fun e => hr (BitVec.eq_of_toNat_eq (by simpa using e))
  have h2 : q.toNat ≠ r.toNat := fun e => h (BitVec.eq_of_toNat_eq e)
  omega

theorem State.readReg_writeReg_other (s : State) (q r : Reg) (v : Word) (h : q ≠ r) :
    (s.writeReg r v).readReg q = s.readReg q := by
  by_cases hq : q = 0
  · subst hq; rfl
  · by_cases hr : r = 0
    · subst hr; rfl
    · rw [State.readReg, State.readReg, State.writeReg, if_neg hq, if_neg hq, if_neg hr]
      exact Vector.getElem_set_ne (Reg.index_lt r) (Reg.index_lt q) (Reg.index_ne hq hr h)

@[simp] theorem State.readReg_raise (s : State) (e : Event) (r : Reg) : (s.raise e).readReg r = s.readReg r := rfl
@[simp] theorem State.readReg_jump (s : State) (t : Word) (r : Reg) : (s.jump t).readReg r = s.readReg r := rfl
@[simp] theorem State.readReg_finish (s : State) (r : Reg) : s.finish.readReg r = s.readReg r := rfl

end Sys2Proof.Machine
end

