-- ==== Sys2Proof/Laws/Memory.lean ====
section
/-! SUPPORT. Pages and bytes: what a read gives after a write, and that every operation keeps the canonical form. -/

namespace Sys2Proof.Machine

/-! ### Reading after writing -/

theorem Memory.read_write_same (m : Memory) (a : Nat) (b : Byte) (h : Memory.wf m) : (m.write a b).read a = b := by
  induction m with
  | nil => by_cases hb : b = unlistedByte <;> simp [Memory.write, Memory.read, hb]
  | cons c m ih =>
    obtain ⟨k, v⟩ := c
    have hm : Memory.wf m := ⟨(List.pairwise_cons.1 h.1).2, fun c hc => h.2 c (List.mem_cons_of_mem _ hc)⟩
    have hk : ∀ c ∈ m, k < c.1 := (List.pairwise_cons.1 h.1).1
    have none_below : ∀ (n : Memory) (x : Nat), (∀ c ∈ n, x < c.1) → Memory.read n x = unlistedByte := by
      intro n x hn
      induction n with
      | nil => rfl
      | cons d n ihn =>
        have := hn d (by simp)
        simp only [Memory.read]
        rw [if_neg (by omega)]
        exact ihn (fun c hc => hn c (by simp [hc]))
    by_cases hlt : a < k
    · by_cases hb : b = unlistedByte
      · have := none_below m a (fun c hc => by have := hk c hc; omega)
        simp [Memory.write, Memory.read, hlt, hb, this]
        omega
      · simp [Memory.write, Memory.read, hlt, hb]
    · by_cases heq : k = a
      · by_cases hb : b = unlistedByte
        · have := none_below m a (fun c hc => by have := hk c hc; omega)
          simp [Memory.write, heq, hb, this]
        · simp [Memory.write, Memory.read, heq, hb]
      · simp [Memory.write, Memory.read, hlt, heq, ih hm]

theorem Memory.read_write_other (m : Memory) (a x : Nat) (b : Byte) (hx : x ≠ a) :
    (m.write a b).read x = m.read x := by
  induction m with
  | nil => by_cases hb : b = unlistedByte <;> simp [Memory.write, Memory.read, hb, Ne.symm hx]
  | cons c m ih =>
    obtain ⟨k, v⟩ := c
    simp only [Memory.write]
    split
    · split <;> simp [Memory.read, Ne.symm hx]
    · split
      · rename_i h
        subst h
        split <;> simp [Memory.read, Ne.symm hx]
      · simp only [Memory.read, ih]

/-! ### The canonical form -/

theorem Memory.mem_write {m : Memory} {a : Nat} {b : Byte} {c : Host.Cell} (h : c ∈ m.write a b) :
    c ∈ m ∨ (c = (a, b) ∧ b ≠ unlistedByte) := by
  induction m with
  | nil =>
    by_cases hb : b = unlistedByte <;> simp_all [Memory.write]
  | cons d m ih =>
    obtain ⟨k, v⟩ := d
    simp only [Memory.write] at h
    split at h
    · split at h <;> simp_all
      tauto
    · split at h
      · split at h <;> simp_all
        tauto
      · rcases List.mem_cons.1 h with h | h
        · exact .inl (by simp [h])
        · exact (ih h).imp_left (fun h => by simp [h])

theorem Memory.write_wf (m : Memory) (a : Nat) (b : Byte) (ha : a < 2 ^ 32) (h : Memory.wf m) :
    Memory.wf (m.write a b) := by
  refine ⟨?_, fun c hc => ?_⟩
  · have hp := h.1
    clear h
    induction m with
    | nil => by_cases hb : b = unlistedByte <;> simp [Memory.write, hb]
    | cons d m ih =>
      obtain ⟨k, v⟩ := d
      obtain ⟨hk, hm⟩ := List.pairwise_cons.1 hp
      simp only [Memory.write]
      split
      · split
        · exact hp
        · refine List.pairwise_cons.2 ⟨fun c hc => ?_, hp⟩
          rcases List.mem_cons.1 hc with rfl | hc
          · assumption
          · have := hk c hc
            simp only at *
            omega
      · split
        · rename_i heq
          subst heq
          split
          · exact hm
          · exact List.pairwise_cons.2 ⟨hk, hm⟩
        · refine List.pairwise_cons.2 ⟨fun c hc => ?_, ih hm⟩
          rcases Memory.mem_write hc with hc | ⟨rfl, -⟩
          · exact hk c hc
          · simp only at *
            omega
  · rcases Memory.mem_write hc with hc | ⟨rfl, hb⟩
    · exact h.2 c hc
    · exact ⟨ha, hb⟩

theorem Memory.writeBytes_wf (bs : List Byte) (m : Memory) (a : Nat) (ha : a + bs.length ≤ 2 ^ 32)
    (h : Memory.wf m) : Memory.wf (m.writeBytes a bs) := by
  induction bs generalizing m a with
  | nil => exact h
  | cons b bs ih =>
    simp only [List.length_cons] at ha
    exact ih _ _ (by omega) (Memory.write_wf m a b (by omega) h)

theorem Memory.clearPage_wf (m : Memory) (v : Vpn) (h : Memory.wf m) : Memory.wf (m.clearPage v) :=
  ⟨h.1.sublist List.filter_sublist, fun c hc => h.2 c (List.mem_of_mem_filter hc)⟩

theorem Memory.writeWord_wf (m : Memory) (a : Nat) (w : Word) (ha : a + 4 ≤ 2 ^ 32) (h : Memory.wf m) :
    Memory.wf (m.writeWord a w) :=
  Memory.writeBytes_wf _ m a (by simpa [bytesOfWord] using ha) h

/-- Reset memory has the form (10_state.md R38). -/
theorem Memory.reset_wf : Memory.wf State.reset.mem := ⟨List.Pairwise.nil, fun _ h => absurd h List.not_mem_nil⟩

/-! ### Words -/

/-- Every byte after a Word is written: its four lanes hold the Word, every other byte is as before (R61). -/
theorem Memory.read_writeWord (m : Memory) (a x : Nat) (w : Word) (ha : a + 4 ≤ 2 ^ 32) (h : Memory.wf m) :
    (m.writeWord a w).read x =
      if x = a then byteOf w 0 else if x = a + 1 then byteOf w 1 else if x = a + 2 then byteOf w 2
      else if x = a + 3 then byteOf w 3 else m.read x := by
  have h0 := Memory.write_wf m a (byteOf w 0) (by omega) h
  have h1 := Memory.write_wf _ (a + 1) (byteOf w 1) (by omega) h0
  have h2 := Memory.write_wf _ (a + 2) (byteOf w 2) (by omega) h1
  simp only [Memory.writeWord, bytesOfWord, Memory.writeBytes, Nat.add_assoc, Nat.reduceAdd]
  by_cases e3 : x = a + 3
  · subst e3
    rw [Memory.read_write_same _ _ _ h2]
    simp
  rw [Memory.read_write_other _ _ _ _ e3]
  by_cases e2 : x = a + 2
  · subst e2
    rw [Memory.read_write_same _ _ _ h1]
    simp
  rw [Memory.read_write_other _ _ _ _ e2]
  by_cases e1 : x = a + 1
  · subst e1
    rw [Memory.read_write_same _ _ _ h0]
    simp
  rw [Memory.read_write_other _ _ _ _ e1]
  by_cases e0 : x = a
  · subst e0
    rw [Memory.read_write_same _ _ _ h]
    simp
  rw [Memory.read_write_other _ _ _ _ e0]
  simp [e0, e1, e2, e3]

/-- A byte outside the four a Word is written to is as before, in any memory. -/
theorem Memory.read_writeWord_out {m : Memory} {a x : Nat} {w : Word} (h : ¬(a ≤ x ∧ x < a + 4)) :
    (m.writeWord a w).read x = m.read x := by
  simp only [Memory.writeWord, bytesOfWord, Memory.writeBytes]
  rw [Memory.read_write_other _ _ _ _ (by omega), Memory.read_write_other _ _ _ _ (by omega),
    Memory.read_write_other _ _ _ _ (by omega), Memory.read_write_other _ _ _ _ (by omega)]

theorem byteAt_congr {s t : State} (hp : t.pages = s.pages) (hm : t.mem = s.mem) (a : Word) :
    t.byteAt a = s.byteAt a := by
  rw [State.byteAt, State.byteAt, hp, hm]

/-! ### Pages -/

theorem Memory.mem_clearPage {m : Memory} {v : Vpn} {c : Host.Cell} (h : c ∈ m.clearPage v) :
    c ∈ m ∧ c.1 / 4096 ≠ v.toNat := by
  simpa [Memory.clearPage] using h

theorem Memory.mem_writeBytes {bs : List Byte} {m : Memory} {a : Nat} {c : Host.Cell} (h : c ∈ m.writeBytes a bs) :
    c ∈ m ∨ (a ≤ c.1 ∧ c.1 < a + bs.length) := by
  induction bs generalizing m a with
  | nil => exact .inl h
  | cons b bs ih =>
    rcases ih h with h | h
    · rcases Memory.mem_write h with h | ⟨rfl, -⟩
      · exact .inl h
      · exact .inr ⟨Nat.le_refl _, by simp⟩
    · exact .inr ⟨by omega, by simp; omega⟩

theorem Memory.read_clearPage (m : Memory) (v : Vpn) (x : Nat) :
    (m.clearPage v).read x = if x / 4096 = v.toNat then unlistedByte else m.read x := by
  induction m with
  | nil => simp [Memory.clearPage, Memory.read]
  | cons c m ih =>
    obtain ⟨k, b⟩ := c
    have ih' : Memory.read (m.filter (fun c => decide (c.1 / 4096 ≠ v.toNat))) x = _ := ih
    by_cases hk : k / 4096 = v.toNat
    · have e : Memory.clearPage ((k, b) :: m) v = Memory.clearPage m v := by simp [Memory.clearPage, hk]
      rw [e, ih]
      by_cases hx : x / 4096 = v.toNat
      · simp [hx]
      · have : k ≠ x := fun h => hx (h ▸ hk)
        simp [hx, Memory.read, this]
    · have e : Memory.clearPage ((k, b) :: m) v = (k, b) :: Memory.clearPage m v := by simp [Memory.clearPage, hk]
      rw [e, Memory.read, Memory.read, ih]
      by_cases hx : k = x
      · subst hx
        simp [hk]
      · simp [hx]

theorem Memory.read_writeBytes (bs : List Byte) (m : Memory) (a x : Nat) (ha : a + bs.length ≤ 2 ^ 32)
    (h : Memory.wf m) :
    (m.writeBytes a bs).read x = if a ≤ x ∧ x < a + bs.length then bs.getD (x - a) 0 else m.read x := by
  induction bs generalizing m a with
  | nil =>
    have : ¬(a ≤ x ∧ x < a) := by omega
    simp [Memory.writeBytes, this]
  | cons b bs ih =>
    simp only [List.length_cons] at ha
    rw [Memory.writeBytes, ih _ _ (by omega) (Memory.write_wf m a b (by omega) h)]
    by_cases hx : x = a
    · subst hx
      simp [Memory.read_write_same m x b h]
    · rw [Memory.read_write_other m a x b hx]
      by_cases hr : a + 1 ≤ x ∧ x < a + 1 + bs.length
      · obtain ⟨k, rfl⟩ := Nat.exists_eq_add_of_le hr.1
        have h2 : a ≤ a + 1 + k ∧ a + 1 + k < a + (b :: bs).length := by simp; omega
        have e1 : a + 1 + k - (a + 1) = k := by omega
        have e2 : a + 1 + k - a = k + 1 := by omega
        rw [if_pos hr, if_pos h2, e1, e2, List.getD_cons_succ]
      · have h2 : ¬(a ≤ x ∧ x < a + (b :: bs).length) := by simp; omega
        rw [if_neg hr, if_neg h2]

theorem translate_insert_same (t : PageTable) (v : Vpn) (p : Perm) : translate (PageTable.insert t v p) v = some p := by
  induction t with
  | nil => simp [PageTable.insert, translate]
  | cons e t ih =>
    simp only [PageTable.insert]
    split
    · simp [translate]
    · split
      · simp [translate]
      · rename_i h
        simp [translate, h, ih]

theorem translate_insert_other (t : PageTable) (u v : Vpn) (p : Perm) (h : u ≠ v) :
    translate (PageTable.insert t v p) u = translate t u := by
  induction t with
  | nil => simp [PageTable.insert, translate, Ne.symm h]
  | cons e t ih =>
    simp only [PageTable.insert]
    split
    · simp [translate, Ne.symm h]
    · split
      · rename_i he
        simp [translate, he, Ne.symm h]
      · simp [translate, ih]

theorem translate_remove_same (t : PageTable) (v : Vpn) : translate (PageTable.remove t v) v = none := by
  induction t with
  | nil => rfl
  | cons e t ih =>
    by_cases h : e.1 = v
    · simpa [PageTable.remove, h] using ih
    · simpa [PageTable.remove, translate, h] using ih

theorem translate_remove_other (t : PageTable) (u v : Vpn) (h : u ≠ v) :
    translate (PageTable.remove t v) u = translate t u := by
  induction t with
  | nil => rfl
  | cons e t ih =>
    by_cases he : e.1 = v
    · have : e.1 ≠ u := fun h' => h (h'.symm.trans he)
      simpa [PageTable.remove, translate, he, Ne.symm h] using ih
    · have ih' : translate (t.filter (fun x => x.1 != v)) u = translate t u := ih
      simp [PageTable.remove, translate, he, ih']

theorem PageTable.mem_insert {t : PageTable} {v : Vpn} {p : Perm} {e : Vpn × Perm}
    (h : e ∈ PageTable.insert t v p) : e ∈ t ∨ e = (v, p) := by
  induction t with
  | nil => simp_all [PageTable.insert]
  | cons d t ih =>
    simp only [PageTable.insert] at h
    split at h
    · simp_all
      tauto
    · split at h
      · simp_all
        tauto
      · rcases List.mem_cons.1 h with h | h
        · exact .inl (by simp [h])
        · exact (ih h).imp_left (fun h => by simp [h])

theorem PageTable.insert_wf (t : PageTable) (v : Vpn) (p : Perm) (h : PageTable.wf t) :
    PageTable.wf (PageTable.insert t v p) := by
  induction t with
  | nil => simp [PageTable.insert]
  | cons d t ih =>
    obtain ⟨hd, ht⟩ := List.pairwise_cons.1 h
    simp only [PageTable.insert]
    split
    · refine List.pairwise_cons.2 ⟨fun c hc => ?_, h⟩
      rcases List.mem_cons.1 hc with rfl | hc
      · assumption
      · have := hd c hc
        simp only at *
        omega
    · split
      · rename_i he
        exact List.pairwise_cons.2 ⟨fun c hc => he ▸ hd c hc, ht⟩
      · refine List.pairwise_cons.2 ⟨fun c hc => ?_, ih ht⟩
        rcases PageTable.mem_insert hc with hc | rfl
        · exact hd c hc
        · rename_i hlt hne
          have : d.1.toNat ≠ v.toNat := fun e => hne (BitVec.eq_of_toNat_eq e)
          simp only at *
          omega

theorem PageTable.remove_wf (t : PageTable) (v : Vpn) (h : PageTable.wf t) : PageTable.wf (PageTable.remove t v) :=
  h.sublist List.filter_sublist

end Sys2Proof.Machine
end

