-- ==== Sys2Proof/Laws/Mmu.lean ====
section
/-! SUPPORT. What each MMU operation can give, once: the lemmas that later proofs cite instead of unfolding
`memAccess`. -/

namespace Sys2Proof.Machine

/-! ### Addresses -/

theorem vpnOf_toNat (a : Word) : (vpnOf a).toNat = a.toNat / 4096 := by
  have := a.isLt
  simp only [vpnOf, bits, BitVec.extractLsb'_toNat, Nat.shiftRight_eq_div_pow]
  omega

theorem vpoOf_toNat (a : Word) : (vpoOf a).toNat = a.toNat % 4096 := by
  simp [vpoOf, bits, BitVec.extractLsb'_toNat]

theorem pastPageEnd_eq_false {a : Word} : pastPageEnd a = false ↔ a.toNat % 4096 ≤ 4092 := by
  simp [pastPageEnd, vpoOf_toNat]

theorem pastPageEnd_eq_true {a : Word} : pastPageEnd a = true ↔ 4092 < a.toNat % 4096 := by
  simp [pastPageEnd, vpoOf_toNat]

/-- Four bytes inside a page are four bytes of the address space. -/
theorem toNat_add_four_le {a : Word} (h : pastPageEnd a = false) : a.toNat + 4 ≤ 2 ^ 32 := by
  have := a.isLt
  have := pastPageEnd_eq_false.1 h
  omega

/-- The address of the containing word, as a number (42_mem.md R171). -/
theorem containingWord_toNat (ea : Word) : (containingWord ea).toNat = ea.toNat - ea.toNat % 4 := by
  have h : containingWord ea = (ea >>> 2) <<< 2 := by
    unfold containingWord
    ext i hi
    rcases Nat.lt_or_ge i 2 with h | h
    · interval_cases i <;> simp
    · interval_cases i <;> simp
  have hx := ea.isLt
  rw [h, BitVec.toNat_shiftLeft, BitVec.toNat_ushiftRight, Nat.shiftLeft_eq, Nat.shiftRight_eq_div_pow]
  omega

theorem bitOffset_eq (ea : Word) : bitOffset ea = 8 * (ea.toNat % 4) := by
  simp [bitOffset, bits, BitVec.extractLsb'_toNat]

theorem vpnOf_containingWord (ea : Word) : vpnOf (containingWord ea) = vpnOf ea := by
  apply BitVec.eq_of_toNat_eq
  simp only [vpnOf_toNat, containingWord_toNat]
  omega

/-- "A sub-word load never has an address with `vpo > 0xFFC`" (42_mem.md R171). -/
theorem pastPageEnd_containingWord (ea : Word) : pastPageEnd (containingWord ea) = false := by
  rw [pastPageEnd_eq_false, containingWord_toNat]
  omega

/-- A word written inside a page changes no byte of another page. -/
theorem read_writeWord_other_page {m : Memory} {a b w : Word} (hv : vpnOf b ≠ vpnOf a) (he : pastPageEnd a = false) :
    (m.writeWord a.toNat w).read b.toNat = m.read b.toNat := by
  apply Memory.read_writeWord_out
  have he := pastPageEnd_eq_false.1 he
  have hv : b.toNat / 4096 ≠ a.toNat / 4096 := by
    rw [← vpnOf_toNat, ← vpnOf_toNat]
    exact fun e => hv (BitVec.eq_of_toNat_eq e)
  omega

/-! ### MemRead and MemWrite (20_memory.md R62, R63) -/

theorem memRead_miss {s : State} {a : Word} (h : translate s.pages (vpnOf a) = none) :
    memRead s a = .fault .pageFaultMiss := by
  simp [memRead, memAccess, h, MmuResult.map]

theorem memRead_pastEnd {s : State} {a : Word} {p : Perm} (h : translate s.pages (vpnOf a) = some p)
    (he : pastPageEnd a = true) : memRead s a = .noMeaning := by
  simp [memRead, memAccess, h, he, MmuResult.map]

theorem memRead_done {s : State} {a : Word} {p : Perm} (h : translate s.pages (vpnOf a) = some p)
    (he : pastPageEnd a = false) : memRead s a = .done (s.mem.readWord a.toNat) := by
  simp [memRead, memAccess, h, he, MmuResult.map]

/-- Everything a MemRead can be. -/
theorem memRead_cases (s : State) (a : Word) :
    (translate s.pages (vpnOf a) = none ∧ memRead s a = .fault .pageFaultMiss) ∨
    (∃ p, translate s.pages (vpnOf a) = some p ∧ pastPageEnd a = true ∧ memRead s a = .noMeaning) ∨
    (∃ p, translate s.pages (vpnOf a) = some p ∧ pastPageEnd a = false ∧
      memRead s a = .done (s.mem.readWord a.toNat)) := by
  cases h : translate s.pages (vpnOf a) with
  | none => exact .inl ⟨rfl, memRead_miss h⟩
  | some p =>
    cases he : pastPageEnd a with
    | true => exact .inr (.inl ⟨p, rfl, rfl, memRead_pastEnd h he⟩)
    | false => exact .inr (.inr ⟨p, rfl, rfl, memRead_done h he⟩)

theorem memWrite_miss {s : State} {a v : Word} (h : translate s.pages (vpnOf a) = none) :
    memWrite s a v = .fault .pageFaultMiss := by
  simp [memWrite, memAccess, h, MmuResult.map]

theorem memWrite_perms {s : State} {a v : Word} (h : translate s.pages (vpnOf a) = some .readOnly) :
    memWrite s a v = .fault .pageFaultPerms := by
  simp [memWrite, memAccess, h, MmuResult.map]

theorem memWrite_done {s : State} {a v : Word} (h : translate s.pages (vpnOf a) = some .readWrite)
    (he : pastPageEnd a = false) : memWrite s a v = .done { s with mem := s.mem.writeWord a.toNat v } := by
  simp [memWrite, memAccess, h, he, MmuResult.map]

/-- A MemWrite that succeeds went to a ReadWrite page and changed the memory alone. -/
theorem memWrite_inv {s t : State} {a v : Word} (h : memWrite s a v = .done t) :
    translate s.pages (vpnOf a) = some .readWrite ∧ pastPageEnd a = false ∧
      t = { s with mem := s.mem.writeWord a.toNat v } := by
  cases hp : translate s.pages (vpnOf a) with
  | none => simp [memWrite_miss hp] at h
  | some p =>
    cases p with
    | readOnly => simp [memWrite_perms hp] at h
    | readWrite =>
      cases he : pastPageEnd a with
      | true => simp [memWrite, memAccess, hp, he, MmuResult.map] at h
      | false =>
        rw [memWrite_done hp he] at h
        exact ⟨rfl, rfl, (MmuResult.done.inj h).symm⟩

/-! ### What follows an MMU operation -/

theorem afterMmu_done {α : Type} (x : α) (s : State) (fa : Word) (k : α → Answer) :
    afterMmu (.done x) s fa k = k x := rfl

theorem afterMmu_fault {α : Type} (f : MmuFault) (s : State) (fa : Word) (k : α → Answer) :
    afterMmu (.fault f) s fa k = .next (s.raise (f.event fa s.pc)) := rfl

theorem afterMmu_noMeaning {α : Type} (s : State) (fa : Word) (k : α → Answer) :
    afterMmu .noMeaning s fa k = .refused .wordPastPageEnd := rfl

/-- Everything that can follow an MMU operation and answer a next state: its success, or a memory-fault event with
nothing else changed (42_mem.md R182). -/
theorem afterMmu_next {α : Type} {r : MmuResult α} {s t : State} {fa : Word} {k : α → Answer}
    (h : afterMmu r s fa k = .next t) :
    (∃ x, r = .done x ∧ k x = .next t) ∨ (∃ f, r = .fault f ∧ t = s.raise (f.event fa s.pc)) := by
  cases r with
  | done x => exact .inl ⟨x, rfl, h⟩
  | fault f =>
    rw [afterMmu_fault] at h
    injection h with h
    exact .inr ⟨f, rfl, h.symm⟩
  | noMeaning => simp [afterMmu_noMeaning] at h

/-- A store whose word lies in a ReadWrite page completes (42_mem.md R177). -/
theorem storeAt_done {a ea : Word} {merge : Word → Word} {s : State}
    (hp : translate s.pages (vpnOf a) = some .readWrite) (he : pastPageEnd a = false) :
    storeAt a ea merge s = .next
      { s with mem := s.mem.writeWord a.toNat (merge (s.mem.readWord a.toNat)), pc := s.pc + 4, event := .none } := by
  rw [storeAt, memRead_done hp he, afterMmu_done, memWrite_done hp he, afterMmu_done]
  rfl

end Sys2Proof.Machine
end

