-- ==== Sys2Proof/Laws/Exec.lean ====
section
/-! SUPPORT. One lemma for each handler that says all it can do, cited by the lemmas about `exec`, `singleStep` and
`step` instead of unfolding it. -/

namespace Sys2Proof.Machine

/-! ### The ALU handler (41_alu.md R140, R141) -/

theorem boolWord_lessSigned (a b : Word) : boolWord (lessSigned a b) = if a.toInt < b.toInt then 1 else 0 := by
  by_cases h : a.toInt < b.toInt <;> simp [boolWord, lessSigned, h]

theorem boolWord_lessUnsigned (a b : Word) : boolWord (lessUnsigned a b) = if a.toNat < b.toNat then 1 else 0 := by
  by_cases h : a.toNat < b.toNat <;> simp [boolWord, lessUnsigned, h]

theorem shiftAmount_eq (b : Word) : shiftAmount b = b.toNat % 32 := by
  simp [shiftAmount, bits, BitVec.extractLsb'_toNat]

/-- Only the shift amount of a shift instruction's immediate counts (R152). -/
theorem shiftAmount_shiftImm (f : BitVec 7) (k : BitVec 5) : shiftAmount ((shiftImm f k).signExtend 32) = k.toNat := by
  unfold shiftAmount
  congr 1
  unfold bits shiftImm place
  ext i hi
  interval_cases i <;> simp [BitVec.getElem_signExtend]

/-- All the ALU handler does: the destination, pc and the event (R140). -/
theorem aluHandler_eq (sig : AluSignals) (s : State) :
    aluHandler sig s = { s.writeReg sig.rd (alu sig.operation (sig.operand1.value s) (sig.operand2.value s)) with
        pc := s.pc + 4, event := .none } := by
  simp [aluHandler, State.finish, State.jump]

/-! ### The memory handlers (42_mem.md R171, R177, R182) -/

/-- A byte of a mapped page. -/
theorem byteAt_some {s : State} {a : Word} {b : Byte} (h : s.byteAt a = some b) :
    ∃ p, translate s.pages (vpnOf a) = some p ∧ s.mem.read a.toNat = b := by
  simpa [State.byteAt] using h

/-- The low `n` bits of a Word. -/
theorem bits_zero (w : Word) (n : Nat) : bits w 0 n = w.setWidth n := by
  apply BitVec.eq_of_getLsbD_eq
  intro i hi
  simp [bits]

theorem loadResult_eq (s : State) (rd : Reg) (v : Word) :
    loadResult s rd v = .next { s.writeReg rd v with pc := s.pc + 4, event := .none } := by
  simp [loadResult, State.finish, State.jump]

/-- A sub-word load from a mapped page completes (42_mem.md R171). -/
theorem loadSub_done {s : State} {rd rs1 : Reg} {imm : BitVec 12} {p : Perm} (f : Word → Word)
    (h : translate s.pages (vpnOf (effectiveAddress s rs1 imm)) = some p) :
    loadSub f rd rs1 imm s = loadResult s rd (f (s.mem.readWord (containingWord (effectiveAddress s rs1 imm)).toNat
      >>> bitOffset (effectiveAddress s rs1 imm))) := by
  rw [loadSub, memRead_done (p := p) (by rwa [vpnOf_containingWord]) (pastPageEnd_containingWord _)]
  rfl

/-- What a load can answer as a next state (42_mem.md R171, R182). -/
theorem load_next {s t : State} {a ea : Word} {rd : Reg} {f : Word → Word} (hv : vpnOf a = vpnOf ea)
    (h : afterMmu (memRead s a) s ea (fun w => loadResult s rd (f w)) = .next t) :
    (∃ v, t = { s.writeReg rd v with pc := s.pc + 4, event := .none }) ∨
    (translate s.pages (vpnOf ea) = none ∧ t = s.raise (.pageFaultMiss ea s.pc)) := by
  rcases afterMmu_next h with ⟨w, -, h⟩ | ⟨k, hr, h⟩
  · rw [loadResult_eq] at h
    injection h with h
    exact .inl ⟨_, h.symm⟩
  · rcases memRead_cases s a with ⟨hm, hk⟩ | ⟨_, -, -, hk⟩ | ⟨_, -, -, hk⟩ <;> rw [hk] at hr
    · cases hr
      exact .inr ⟨hv ▸ hm, h⟩
    · cases hr
    · cases hr

/-- What a store can answer as a next state: a word of a ReadWrite page rewritten, or a memory-fault event that says
why, with nothing else changed (42_mem.md R177, R182). -/
theorem storeAt_next {a ea : Word} {merge : Word → Word} {s t : State} (hv : vpnOf a = vpnOf ea)
    (h : storeAt a ea merge s = .next t) :
    (translate s.pages (vpnOf a) = some .readWrite ∧ pastPageEnd a = false ∧
      t = { s with mem := s.mem.writeWord a.toNat (merge (s.mem.readWord a.toNat)), pc := s.pc + 4, event := .none }) ∨
    (translate s.pages (vpnOf ea) = none ∧ t = s.raise (.pageFaultMiss ea s.pc)) ∨
    (translate s.pages (vpnOf ea) = some .readOnly ∧ t = s.raise (.pageFaultPerms ea s.pc)) := by
  rcases memRead_cases s a with ⟨hm, hk⟩ | ⟨_, -, -, hk⟩ | ⟨p, hp, he, hk⟩ <;> rw [storeAt, hk] at h
  · rw [afterMmu_fault] at h
    injection h with h
    exact .inr (.inl ⟨hv ▸ hm, h.symm⟩)
  · simp [afterMmu_noMeaning] at h
  · rw [afterMmu_done] at h
    cases p with
    | readWrite =>
      rw [memWrite_done hp he, afterMmu_done] at h
      injection h with h
      exact .inl ⟨hp, he, h.symm⟩
    | readOnly =>
      rw [memWrite_perms hp, afterMmu_fault] at h
      injection h with h
      exact .inr (.inr ⟨hv ▸ hp, h.symm⟩)

/-! ### Every instruction -/

/-- `pc + 4` and `pc + off` keep an even pc even (43_ctrl.md R202). -/
theorem even_add {a b : Word} (ha : a.getLsbD 0 = false) (hb : b.getLsbD 0 = false) : (a + b).getLsbD 0 = false := by
  simp only [BitVec.getLsbD, Nat.testBit_zero, BitVec.toNat_add] at *
  simp at *
  omega

theorem even_signExtend {n : Nat} {off : BitVec n} (h : evenOffset off = true) :
    (off.signExtend 32).getLsbD 0 = false := by
  rcases Nat.eq_zero_or_pos n with rfl | hn
  · simp [BitVec.eq_nil off]
  · rw [BitVec.getLsbD_signExtend]
    simpa [evenOffset, hn] using h

/-- Everything `exec` can do when it answers a next state: write the destination register, set pc, write one word of a
ReadWrite page, or raise an event with nothing else changed but ECALL's pc. -/
theorem exec_next {i : Instr} {s t : State} (h : exec i s = .next t) :
    (∃ rd v pc', destOf i = some rd ∧ isStore i = false ∧
      t = { s.writeReg rd v with pc := pc', event := .none } ∧
      (i.wellFormed = true → s.pc.getLsbD 0 = false → pc'.getLsbD 0 = false)) ∨
    (∃ pc', destOf i = none ∧ isStore i = false ∧ t = { s with pc := pc', event := .none } ∧
      (i.wellFormed = true → s.pc.getLsbD 0 = false → pc'.getLsbD 0 = false)) ∨
    (∃ a w, isStore i = true ∧ translate s.pages (vpnOf a) = some .readWrite ∧ pastPageEnd a = false ∧
      t = { s with mem := s.mem.writeWord a.toNat w, pc := s.pc + 4, event := .none }) ∨
    (∃ ea, translate s.pages (vpnOf ea) = none ∧ t = s.raise (.pageFaultMiss ea s.pc)) ∨
    (∃ ea, isStore i = true ∧ translate s.pages (vpnOf ea) = some .readOnly ∧
      t = s.raise (.pageFaultPerms ea s.pc)) ∨
    (i = .ecall ∧ t = { s with pc := s.pc + 4, event := .ecall }) ∨
    (i = .ebreak ∧ t = s.raise .ebreak) := by
  have alu : ∀ (sig : AluSignals), destOf i = some sig.rd → isStore i = false →
      (.next (aluHandler sig s) : Answer) = .next t →
      ∃ rd v pc', destOf i = some rd ∧ isStore i = false ∧ t = { s.writeReg rd v with pc := pc', event := .none } ∧
        (i.wellFormed = true → s.pc.getLsbD 0 = false → pc'.getLsbD 0 = false) := by
    intro sig hd hs h
    injection h with h
    rw [aluHandler_eq] at h
    exact ⟨_, _, _, hd, hs, h.symm, fun _ hp => even_add hp rfl⟩
  have load : ∀ (a ea : Word) (rd : Reg) (f : Word → Word), vpnOf a = vpnOf ea → destOf i = some rd →
      isStore i = false → afterMmu (memRead s a) s ea (fun w => loadResult s rd (f w)) = .next t →
      (∃ rd v pc', destOf i = some rd ∧ isStore i = false ∧ t = { s.writeReg rd v with pc := pc', event := .none } ∧
        (i.wellFormed = true → s.pc.getLsbD 0 = false → pc'.getLsbD 0 = false)) ∨
      ∃ ea, translate s.pages (vpnOf ea) = none ∧ t = s.raise (.pageFaultMiss ea s.pc) := by
    intro a ea rd f hv hd hs h
    rcases load_next hv h with ⟨v, h⟩ | h
    · exact .inl ⟨_, _, _, hd, hs, h, fun _ hp => even_add hp rfl⟩
    · exact .inr ⟨_, h⟩
  have br : ∀ (c : BranchCond) (rs1 rs2 : Reg) (off : BitVec 13), destOf i = none → isStore i = false →
      (i.wellFormed = true → evenOffset off = true) → branch c rs1 rs2 off s = .next t →
      ∃ pc', destOf i = none ∧ isStore i = false ∧ t = { s with pc := pc', event := .none } ∧
        (i.wellFormed = true → s.pc.getLsbD 0 = false → pc'.getLsbD 0 = false) := by
    intro c rs1 rs2 off hd hs ho h
    injection h with h
    split at h
    · exact ⟨_, hd, hs, h.symm, fun hw hp => even_add hp (even_signExtend (ho hw))⟩
    · exact ⟨_, hd, hs, h.symm, fun hw hp => even_add hp rfl⟩
  have store : ∀ (a ea : Word) (merge : Word → Word), vpnOf a = vpnOf ea → isStore i = true →
      storeAt a ea merge s = .next t →
      (∃ a w, isStore i = true ∧ translate s.pages (vpnOf a) = some .readWrite ∧ pastPageEnd a = false ∧
        t = { s with mem := s.mem.writeWord a.toNat w, pc := s.pc + 4, event := .none }) ∨
      (∃ ea, translate s.pages (vpnOf ea) = none ∧ t = s.raise (.pageFaultMiss ea s.pc)) ∨
      ∃ ea, isStore i = true ∧ translate s.pages (vpnOf ea) = some .readOnly ∧
        t = s.raise (.pageFaultPerms ea s.pc) := by
    intro a ea merge hv hs h
    rcases storeAt_next hv h with ⟨hp, he, h⟩ | h | h
    · exact .inl ⟨a, _, hs, hp, he, h⟩
    · exact .inr (.inl ⟨_, h⟩)
    · exact .inr (.inr ⟨_, hs, h⟩)
  have loadCase : ∀ {A B C D E F G : Prop}, A ∨ D → A ∨ B ∨ C ∨ D ∨ E ∨ F ∨ G := by tauto
  have storeCase : ∀ {A B C D E F G : Prop}, C ∨ D ∨ E → A ∨ B ∨ C ∨ D ∨ E ∨ F ∨ G := by tauto
  cases i with
  | lui => exact .inl (alu _ rfl rfl h)
  | auipc => exact .inl (alu _ rfl rfl h)
  | addi => exact .inl (alu _ rfl rfl h)
  | slti => exact .inl (alu _ rfl rfl h)
  | sltiu => exact .inl (alu _ rfl rfl h)
  | xori => exact .inl (alu _ rfl rfl h)
  | ori => exact .inl (alu _ rfl rfl h)
  | andi => exact .inl (alu _ rfl rfl h)
  | slli => exact .inl (alu _ rfl rfl h)
  | srli => exact .inl (alu _ rfl rfl h)
  | srai => exact .inl (alu _ rfl rfl h)
  | add => exact .inl (alu _ rfl rfl h)
  | sub => exact .inl (alu _ rfl rfl h)
  | sll => exact .inl (alu _ rfl rfl h)
  | slt => exact .inl (alu _ rfl rfl h)
  | sltu => exact .inl (alu _ rfl rfl h)
  | xor => exact .inl (alu _ rfl rfl h)
  | srl => exact .inl (alu _ rfl rfl h)
  | sra => exact .inl (alu _ rfl rfl h)
  | or => exact .inl (alu _ rfl rfl h)
  | and => exact .inl (alu _ rfl rfl h)
  | lb => exact loadCase (load _ _ _ _ (vpnOf_containingWord _) rfl rfl h)
  | lh => exact loadCase (load _ _ _ _ (vpnOf_containingWord _) rfl rfl h)
  | lw => exact loadCase (load _ _ _ id rfl rfl rfl h)
  | lbu => exact loadCase (load _ _ _ _ (vpnOf_containingWord _) rfl rfl h)
  | lhu => exact loadCase (load _ _ _ _ (vpnOf_containingWord _) rfl rfl h)
  | sb => exact storeCase (store _ _ _ (vpnOf_containingWord _) rfl h)
  | sh => exact storeCase (store _ _ _ (vpnOf_containingWord _) rfl h)
  | sw => exact storeCase (store _ _ _ rfl rfl h)
  | jal rd off =>
    injection h with h
    exact .inl ⟨rd, _, _, rfl, rfl, h.symm, fun hw hp => even_add hp (even_signExtend hw)⟩
  | jalr rd rs1 imm =>
    injection h with h
    exact .inl ⟨rd, _, _, rfl, rfl, h.symm, fun _ _ => by simp [jalrTarget]⟩
  | beq => exact .inr (.inl (br _ _ _ _ rfl rfl id h))
  | bne => exact .inr (.inl (br _ _ _ _ rfl rfl id h))
  | blt => exact .inr (.inl (br _ _ _ _ rfl rfl id h))
  | bge => exact .inr (.inl (br _ _ _ _ rfl rfl id h))
  | bltu => exact .inr (.inl (br _ _ _ _ rfl rfl id h))
  | bgeu => exact .inr (.inl (br _ _ _ _ rfl rfl id h))
  | ecall =>
    injection h with h
    exact .inr (.inr (.inr (.inr (.inr (.inl ⟨rfl, h.symm⟩)))))
  | ebreak =>
    injection h with h
    exact .inr (.inr (.inr (.inr (.inr (.inr ⟨rfl, h.symm⟩)))))

/-- No instruction changes the parameters, the counters, the page table, the run or the host's moves. -/
theorem exec_keeps {i : Instr} {s t : State} (h : exec i s = .next t) :
    t.config = s.config ∧ t.counter = s.counter ∧ t.cycles = s.cycles ∧ t.pages = s.pages ∧
      t.running = s.running ∧ t.host = s.host := by
  rcases exec_next h with ⟨_, _, _, -, -, rfl, -⟩ | ⟨_, -, -, rfl, -⟩ | ⟨_, _, -, -, -, rfl⟩ | ⟨_, -, rfl⟩ |
    ⟨_, -, -, rfl⟩ | ⟨-, rfl⟩ | ⟨-, rfl⟩ <;> simp

/-- Only a word access past the end of a mapped page is refused (20_memory.md R66). -/
theorem exec_refused {i : Instr} {s : State} {r : Refusal} (h : exec i s = .refused r) :
    r = .wordPastPageEnd ∧ ∃ a, wordAccess i s = some a ∧ pastPageEnd a = true := by
  have load : ∀ (a ea : Word) (k : Word → Answer), (∀ w r, k w ≠ .refused r) →
      afterMmu (memRead s a) s ea k = .refused r → r = .wordPastPageEnd ∧ pastPageEnd a = true := by
    intro a ea k hk h
    rcases memRead_cases s a with ⟨-, e⟩ | ⟨_, -, he, e⟩ | ⟨_, -, -, e⟩ <;> rw [e] at h
    · simp [afterMmu_fault] at h
    · rw [afterMmu_noMeaning] at h
      injection h with h
      exact ⟨h.symm, he⟩
    · exact absurd h (hk _ _)
  have store : ∀ (a ea : Word) (merge : Word → Word), storeAt a ea merge s = .refused r →
      r = .wordPastPageEnd ∧ pastPageEnd a = true := by
    intro a ea merge h
    rcases memRead_cases s a with ⟨-, e⟩ | ⟨_, -, he, e⟩ | ⟨p, hp, he, e⟩ <;> rw [storeAt, e] at h
    · simp [afterMmu_fault] at h
    · rw [afterMmu_noMeaning] at h
      injection h with h
      exact ⟨h.symm, he⟩
    · cases p with
      | readOnly => simp [memWrite_perms hp, afterMmu_done, afterMmu_fault] at h
      | readWrite => simp [memWrite_done hp he, afterMmu_done] at h
  have sub : ∀ ea : Word, pastPageEnd (containingWord ea) ≠ true := by simp [pastPageEnd_containingWord]
  cases i with
  | lb => exact absurd (load _ _ _ (by simp [loadResult]) h).2 (sub _)
  | lh => exact absurd (load _ _ _ (by simp [loadResult]) h).2 (sub _)
  | lbu => exact absurd (load _ _ _ (by simp [loadResult]) h).2 (sub _)
  | lhu => exact absurd (load _ _ _ (by simp [loadResult]) h).2 (sub _)
  | sb => exact absurd (store _ _ _ h).2 (sub _)
  | sh => exact absurd (store _ _ _ h).2 (sub _)
  | lw =>
    obtain ⟨hr, he⟩ := load _ _ _ (by simp [loadResult]) h
    exact ⟨hr, _, rfl, he⟩
  | sw =>
    obtain ⟨hr, he⟩ := store _ _ _ h
    exact ⟨hr, _, rfl, he⟩
  | _ => cases h

/-! ### What no instruction reads -/

theorem memRead_congr {s t : State} (hp : t.pages = s.pages) (hm : t.mem = s.mem) (a : Word) :
    memRead t a = memRead s a := by
  rcases memRead_cases s a with ⟨h, e⟩ | ⟨p, h, he, e⟩ | ⟨p, h, he, e⟩ <;> rw [e] <;> rw [← hp] at h
  · exact memRead_miss h
  · exact memRead_pastEnd h he
  · rw [memRead_done h he, hm]

/-- Two states agree on everything an instruction reads: the registers, pc, the pages, the memory and SH_MASK16. -/
structure SameForExec (s u : State) : Prop where
  regs : u.regs = s.regs
  pc : u.pc = s.pc
  pages : u.pages = s.pages
  mem : u.mem = s.mem
  mask : u.config.shMask16 = s.config.shMask16

/-- What an instruction does is a function of what it reads: from states that agree on it, `exec` answers the same but
for the fields it neither reads nor writes. `V` carries those over; `event` is written on every path. -/
theorem exec_congr (i : Instr) {s u : State} {V : State → State} (h : SameForExec s u)
    (hV : ∀ regs pc mem ev, { u with regs := regs, pc := pc, mem := mem, event := ev } =
      V { s with regs := regs, pc := pc, mem := mem, event := ev }) :
    exec i u = mapNext V (exec i s) := by
  obtain ⟨regs, pc, ⟨period, fire, mask⟩, counter, cycles, pages, mem, event, running, host⟩ := s
  obtain ⟨regs', pc', ⟨period', fire', mask'⟩, counter', cycles', pages', mem', event', running', host'⟩ := u
  obtain ⟨h1, h2, h3, h4, h5⟩ := h
  simp only at h1 h2 h3 h4 h5
  subst h1 h2 h3 h4 h5
  generalize hu : State.mk regs' pc' ⟨period', fire', mask'⟩ counter' cycles' pages' mem' event' running' host' = u at *
  generalize hs : State.mk regs' pc' ⟨period, fire, mask'⟩ counter cycles pages' mem' event running host = s at *
  have hwrite : ∀ r v pc, (.next { u.writeReg r v with pc := pc, event := .none } : Answer) =
      mapNext V (.next { s.writeReg r v with pc := pc, event := .none }) := by
    intro r v pc
    subst hu hs
    unfold State.writeReg
    split
    · exact congrArg _ (hV _ _ _ _)
    · exact congrArg _ (hV _ _ _ _)
  have hset : ∀ m pc e, (.next { u with mem := m, pc := pc, event := e } : Answer) =
      mapNext V (.next { s with mem := m, pc := pc, event := e }) := by
    intro m pc e
    subst hu hs
    exact congrArg _ (hV _ _ _ _)
  have hsame : u.pages = s.pages ∧ u.mem = s.mem ∧ u.pc = s.pc ∧ (∀ r, u.readReg r = s.readReg r) ∧
      (∀ r i, effectiveAddress u r i = effectiveAddress s r i) ∧ u.config.shMask16 = s.config.shMask16 := by
    subst hu hs
    exact ⟨rfl, rfl, rfl, fun _ => rfl, fun _ _ => rfl, rfl⟩
  obtain ⟨hpages, hmem, hpc, hreg, hea, hmask⟩ := hsame
  have hraise : ∀ e, (.next (u.raise e) : Answer) = mapNext V (.next (s.raise e)) := by
    subst hu hs
    exact fun e => hset _ _ e
  have halu : ∀ sig : AluSignals, (.next (aluHandler sig u) : Answer) = mapNext V (.next (aluHandler sig s)) := by
    rintro ⟨op, o1, o2, rd⟩
    rw [aluHandler_eq, aluHandler_eq, hpc]
    have e1 : o1.value u = o1.value s := by cases o1 <;> simp [Operand1.value, hreg, hpc]
    have e2 : o2.value u = o2.value s := by cases o2 <;> simp [Operand2.value, hreg]
    rw [e1, e2]
    exact hwrite _ _ _
  have hload : ∀ (a ea : Word) (rd : Reg) (f : Word → Word),
      afterMmu (memRead u a) u ea (fun w => loadResult u rd (f w)) =
      mapNext V (afterMmu (memRead s a) s ea (fun w => loadResult s rd (f w))) := by
    intro a ea rd f
    rw [memRead_congr hpages hmem]
    cases memRead s a with
    | done w =>
      rw [afterMmu_done, afterMmu_done, loadResult_eq, loadResult_eq, hpc]
      exact hwrite _ _ _
    | fault k =>
      rw [afterMmu_fault, afterMmu_fault, hpc]
      exact hraise _
    | noMeaning => rfl
  have hsub : ∀ (f : Word → Word) rd rs1 imm, loadSub f rd rs1 imm u = mapNext V (loadSub f rd rs1 imm s) := by
    intro f rd rs1 imm
    rw [loadSub, hea]
    exact hload _ _ _ _
  have hstore : ∀ (a ea : Word) (merge : Word → Word), storeAt a ea merge u = mapNext V (storeAt a ea merge s) := by
    intro a ea merge
    rcases memRead_cases s a with ⟨-, e⟩ | ⟨_, -, -, e⟩ | ⟨p, hp, he, e⟩ <;>
      rw [storeAt, storeAt, memRead_congr hpages hmem, e]
    · rw [afterMmu_fault, afterMmu_fault, hpc]
      exact hraise _
    · rfl
    · rw [afterMmu_done, afterMmu_done]
      cases p with
      | readOnly =>
        rw [memWrite_perms hp, memWrite_perms (hpages ▸ hp), afterMmu_fault, afterMmu_fault, hpc]
        exact hraise _
      | readWrite =>
        rw [memWrite_done hp he, memWrite_done (hpages ▸ hp) he, afterMmu_done, afterMmu_done, hmem]
        show Host.Outcome.next { u with mem := _, pc := u.pc + 4, event := .none } = _
        rw [hpc]
        exact hset _ _ _
  have hbr : ∀ (c : BranchCond) rs1 rs2 off, branch c rs1 rs2 off u = mapNext V (branch c rs1 rs2 off s) := by
    intro c rs1 rs2 off
    rw [branch, branch, hreg, hreg]
    split
    · show Host.Outcome.next { u with mem := u.mem, pc := u.pc + _, event := .none } = _
      rw [hpc, hmem]
      exact hset _ _ _
    · show Host.Outcome.next { u with mem := u.mem, pc := u.pc + _, event := .none } = _
      rw [hpc, hmem]
      exact hset _ _ _
  have hlink : ∀ (rd : Reg) (target : Word), linkAndJump rd target u = mapNext V (linkAndJump rd target s) := by
    intro rd target
    rw [linkAndJump, linkAndJump, hpc]
    exact hwrite _ _ _
  cases i with
  | lb rd rs1 imm => exact hsub (fun w => (bits w 0 8).signExtend 32) rd rs1 imm
  | lh rd rs1 imm => exact hsub (fun w => (bits w 0 16).signExtend 32) rd rs1 imm
  | lbu rd rs1 imm => exact hsub (fun w => (bits w 0 8).setWidth 32) rd rs1 imm
  | lhu rd rs1 imm => exact hsub (fun w => (bits w 0 16).setWidth 32) rd rs1 imm
  | lw rd rs1 imm =>
    show execLw _ _ _ _ = mapNext V (execLw _ _ _ _)
    rw [execLw, hea]
    exact hload _ _ _ id
  | sb rs2 rs1 imm =>
    show execSb _ _ _ _ = mapNext V (execSb _ _ _ _)
    rw [execSb, execSb, hea, hreg]
    exact hstore _ _ _
  | sh rs2 rs1 imm =>
    show execSh _ _ _ _ = mapNext V (execSh _ _ _ _)
    rw [execSh, execSh, hea, hreg, hmask]
    exact hstore _ _ _
  | sw rs2 rs1 imm =>
    show execSw _ _ _ _ = mapNext V (execSw _ _ _ _)
    rw [execSw, execSw, hea, hreg]
    exact hstore _ _ _
  | jal rd off =>
    show execJal _ _ _ = mapNext V (execJal _ _ _)
    rw [execJal, execJal, jalTarget, hpc]
    exact hlink _ _
  | jalr rd rs1 imm =>
    show execJalr _ _ _ _ = mapNext V (execJalr _ _ _ _)
    rw [execJalr, execJalr, jalrTarget, hreg]
    exact hlink _ _
  | beq rs1 rs2 off => exact hbr .eq rs1 rs2 off
  | bne rs1 rs2 off => exact hbr .ne rs1 rs2 off
  | blt rs1 rs2 off => exact hbr .lt rs1 rs2 off
  | bge rs1 rs2 off => exact hbr .ge rs1 rs2 off
  | bltu rs1 rs2 off => exact hbr .ltu rs1 rs2 off
  | bgeu rs1 rs2 off => exact hbr .geu rs1 rs2 off
  | ecall =>
    show Host.Outcome.next { u with mem := u.mem, pc := u.pc + 4, event := .ecall } = _
    rw [hpc, hmem]
    exact hset _ _ _
  | ebreak => exact hraise _
  | _ => exact halu _

end Sys2Proof.Machine
end

