-- ==== Sys2Proof/Laws/PerInstr.lean ====
section
/-! SUPPORT. One law for each instruction: its encoded word matches its own row of the decode table, and the row's
fields read its operands back (30_encoding.md R92 to R100). -/

namespace Sys2Proof.Laws.RowOfEncode

/-- The word of an instruction matches its row's mask and value; for a well-formed one the row reads it back. -/
def Statement (i : Instr) : Prop :=
  encode i &&& i.row.mask = i.row.value ∧ (i.wellFormed = true → i.row.read (encode i) = i)

theorem lui (rd : Reg) (imm : BitVec 20) : Statement (.lui rd imm) :=
  ⟨(uFormat_mask _ _ _).trans rfl, fun _ => by
    show Instr.lui _ _ = _
    simp only [encode, rdOf_uFormat, immU_uFormat]⟩

theorem auipc (rd : Reg) (imm : BitVec 20) : Statement (.auipc rd imm) :=
  ⟨(uFormat_mask _ _ _).trans rfl, fun _ => by
    show Instr.auipc _ _ = _
    simp only [encode, rdOf_uFormat, immU_uFormat]⟩

theorem jal (rd : Reg) (off : BitVec 21) : Statement (.jal rd off) :=
  ⟨(jFormat_mask _ _ _).trans rfl, fun h => by
    show Instr.jal _ _ = _
    simp only [encode, rdOf_jFormat, immJ_jFormat _ _ _ h]⟩

theorem jalr (rd rs1 : Reg) (imm : BitVec 12) : Statement (.jalr rd rs1 imm) :=
  ⟨(iFormat_mask _ _ _ _ _).trans rfl, fun _ => by
    show Instr.jalr _ _ _ = _
    simp only [encode, rdOf_iFormat, rs1Of_iFormat, immI_iFormat]⟩

theorem beq (rs1 rs2 : Reg) (off : BitVec 13) : Statement (.beq rs1 rs2 off) :=
  ⟨(bFormat_mask _ _ _ _ _).trans rfl, fun h => by
    show Instr.beq _ _ _ = _
    simp only [encode, rs1Of_bFormat, rs2Of_bFormat, immB_bFormat _ _ _ _ _ h]⟩

theorem bne (rs1 rs2 : Reg) (off : BitVec 13) : Statement (.bne rs1 rs2 off) :=
  ⟨(bFormat_mask _ _ _ _ _).trans rfl, fun h => by
    show Instr.bne _ _ _ = _
    simp only [encode, rs1Of_bFormat, rs2Of_bFormat, immB_bFormat _ _ _ _ _ h]⟩

theorem blt (rs1 rs2 : Reg) (off : BitVec 13) : Statement (.blt rs1 rs2 off) :=
  ⟨(bFormat_mask _ _ _ _ _).trans rfl, fun h => by
    show Instr.blt _ _ _ = _
    simp only [encode, rs1Of_bFormat, rs2Of_bFormat, immB_bFormat _ _ _ _ _ h]⟩

theorem bge (rs1 rs2 : Reg) (off : BitVec 13) : Statement (.bge rs1 rs2 off) :=
  ⟨(bFormat_mask _ _ _ _ _).trans rfl, fun h => by
    show Instr.bge _ _ _ = _
    simp only [encode, rs1Of_bFormat, rs2Of_bFormat, immB_bFormat _ _ _ _ _ h]⟩

theorem bltu (rs1 rs2 : Reg) (off : BitVec 13) : Statement (.bltu rs1 rs2 off) :=
  ⟨(bFormat_mask _ _ _ _ _).trans rfl, fun h => by
    show Instr.bltu _ _ _ = _
    simp only [encode, rs1Of_bFormat, rs2Of_bFormat, immB_bFormat _ _ _ _ _ h]⟩

theorem bgeu (rs1 rs2 : Reg) (off : BitVec 13) : Statement (.bgeu rs1 rs2 off) :=
  ⟨(bFormat_mask _ _ _ _ _).trans rfl, fun h => by
    show Instr.bgeu _ _ _ = _
    simp only [encode, rs1Of_bFormat, rs2Of_bFormat, immB_bFormat _ _ _ _ _ h]⟩

theorem lb (rd rs1 : Reg) (imm : BitVec 12) : Statement (.lb rd rs1 imm) :=
  ⟨(iFormat_mask _ _ _ _ _).trans rfl, fun _ => by
    show Instr.lb _ _ _ = _
    simp only [encode, rdOf_iFormat, rs1Of_iFormat, immI_iFormat]⟩

theorem lh (rd rs1 : Reg) (imm : BitVec 12) : Statement (.lh rd rs1 imm) :=
  ⟨(iFormat_mask _ _ _ _ _).trans rfl, fun _ => by
    show Instr.lh _ _ _ = _
    simp only [encode, rdOf_iFormat, rs1Of_iFormat, immI_iFormat]⟩

theorem lw (rd rs1 : Reg) (imm : BitVec 12) : Statement (.lw rd rs1 imm) :=
  ⟨(iFormat_mask _ _ _ _ _).trans rfl, fun _ => by
    show Instr.lw _ _ _ = _
    simp only [encode, rdOf_iFormat, rs1Of_iFormat, immI_iFormat]⟩

theorem lbu (rd rs1 : Reg) (imm : BitVec 12) : Statement (.lbu rd rs1 imm) :=
  ⟨(iFormat_mask _ _ _ _ _).trans rfl, fun _ => by
    show Instr.lbu _ _ _ = _
    simp only [encode, rdOf_iFormat, rs1Of_iFormat, immI_iFormat]⟩

theorem lhu (rd rs1 : Reg) (imm : BitVec 12) : Statement (.lhu rd rs1 imm) :=
  ⟨(iFormat_mask _ _ _ _ _).trans rfl, fun _ => by
    show Instr.lhu _ _ _ = _
    simp only [encode, rdOf_iFormat, rs1Of_iFormat, immI_iFormat]⟩

theorem sb (rs2 rs1 : Reg) (imm : BitVec 12) : Statement (.sb rs2 rs1 imm) :=
  ⟨(sFormat_mask _ _ _ _ _).trans rfl, fun _ => by
    show Instr.sb _ _ _ = _
    simp only [encode, rs2Of_sFormat, rs1Of_sFormat, immS_sFormat]⟩

theorem sh (rs2 rs1 : Reg) (imm : BitVec 12) : Statement (.sh rs2 rs1 imm) :=
  ⟨(sFormat_mask _ _ _ _ _).trans rfl, fun _ => by
    show Instr.sh _ _ _ = _
    simp only [encode, rs2Of_sFormat, rs1Of_sFormat, immS_sFormat]⟩

theorem sw (rs2 rs1 : Reg) (imm : BitVec 12) : Statement (.sw rs2 rs1 imm) :=
  ⟨(sFormat_mask _ _ _ _ _).trans rfl, fun _ => by
    show Instr.sw _ _ _ = _
    simp only [encode, rs2Of_sFormat, rs1Of_sFormat, immS_sFormat]⟩

theorem addi (rd rs1 : Reg) (imm : BitVec 12) : Statement (.addi rd rs1 imm) :=
  ⟨(iFormat_mask _ _ _ _ _).trans rfl, fun _ => by
    show Instr.addi _ _ _ = _
    simp only [encode, rdOf_iFormat, rs1Of_iFormat, immI_iFormat]⟩

theorem slti (rd rs1 : Reg) (imm : BitVec 12) : Statement (.slti rd rs1 imm) :=
  ⟨(iFormat_mask _ _ _ _ _).trans rfl, fun _ => by
    show Instr.slti _ _ _ = _
    simp only [encode, rdOf_iFormat, rs1Of_iFormat, immI_iFormat]⟩

theorem sltiu (rd rs1 : Reg) (imm : BitVec 12) : Statement (.sltiu rd rs1 imm) :=
  ⟨(iFormat_mask _ _ _ _ _).trans rfl, fun _ => by
    show Instr.sltiu _ _ _ = _
    simp only [encode, rdOf_iFormat, rs1Of_iFormat, immI_iFormat]⟩

theorem xori (rd rs1 : Reg) (imm : BitVec 12) : Statement (.xori rd rs1 imm) :=
  ⟨(iFormat_mask _ _ _ _ _).trans rfl, fun _ => by
    show Instr.xori _ _ _ = _
    simp only [encode, rdOf_iFormat, rs1Of_iFormat, immI_iFormat]⟩

theorem ori (rd rs1 : Reg) (imm : BitVec 12) : Statement (.ori rd rs1 imm) :=
  ⟨(iFormat_mask _ _ _ _ _).trans rfl, fun _ => by
    show Instr.ori _ _ _ = _
    simp only [encode, rdOf_iFormat, rs1Of_iFormat, immI_iFormat]⟩

theorem andi (rd rs1 : Reg) (imm : BitVec 12) : Statement (.andi rd rs1 imm) :=
  ⟨(iFormat_mask _ _ _ _ _).trans rfl, fun _ => by
    show Instr.andi _ _ _ = _
    simp only [encode, rdOf_iFormat, rs1Of_iFormat, immI_iFormat]⟩

theorem slli (rd rs1 : Reg) (shamt : BitVec 5) : Statement (.slli rd rs1 shamt) :=
  ⟨(rFormat_mask _ _ _ _ _ _).trans rfl, fun _ => by
    show Instr.slli _ _ _ = _
    simp only [encode, rdOf_rFormat, rs1Of_rFormat, shamtOf_rFormat]⟩

theorem srli (rd rs1 : Reg) (shamt : BitVec 5) : Statement (.srli rd rs1 shamt) :=
  ⟨(rFormat_mask _ _ _ _ _ _).trans rfl, fun _ => by
    show Instr.srli _ _ _ = _
    simp only [encode, rdOf_rFormat, rs1Of_rFormat, shamtOf_rFormat]⟩

theorem srai (rd rs1 : Reg) (shamt : BitVec 5) : Statement (.srai rd rs1 shamt) :=
  ⟨(rFormat_mask _ _ _ _ _ _).trans rfl, fun _ => by
    show Instr.srai _ _ _ = _
    simp only [encode, rdOf_rFormat, rs1Of_rFormat, shamtOf_rFormat]⟩

theorem add (rd rs1 rs2 : Reg) : Statement (.add rd rs1 rs2) :=
  ⟨(rFormat_mask _ _ _ _ _ _).trans rfl, fun _ => by
    show Instr.add _ _ _ = _
    simp only [encode, rdOf_rFormat, rs1Of_rFormat, rs2Of_rFormat]⟩

theorem sub (rd rs1 rs2 : Reg) : Statement (.sub rd rs1 rs2) :=
  ⟨(rFormat_mask _ _ _ _ _ _).trans rfl, fun _ => by
    show Instr.sub _ _ _ = _
    simp only [encode, rdOf_rFormat, rs1Of_rFormat, rs2Of_rFormat]⟩

theorem sll (rd rs1 rs2 : Reg) : Statement (.sll rd rs1 rs2) :=
  ⟨(rFormat_mask _ _ _ _ _ _).trans rfl, fun _ => by
    show Instr.sll _ _ _ = _
    simp only [encode, rdOf_rFormat, rs1Of_rFormat, rs2Of_rFormat]⟩

theorem slt (rd rs1 rs2 : Reg) : Statement (.slt rd rs1 rs2) :=
  ⟨(rFormat_mask _ _ _ _ _ _).trans rfl, fun _ => by
    show Instr.slt _ _ _ = _
    simp only [encode, rdOf_rFormat, rs1Of_rFormat, rs2Of_rFormat]⟩

theorem sltu (rd rs1 rs2 : Reg) : Statement (.sltu rd rs1 rs2) :=
  ⟨(rFormat_mask _ _ _ _ _ _).trans rfl, fun _ => by
    show Instr.sltu _ _ _ = _
    simp only [encode, rdOf_rFormat, rs1Of_rFormat, rs2Of_rFormat]⟩

theorem xor (rd rs1 rs2 : Reg) : Statement (.xor rd rs1 rs2) :=
  ⟨(rFormat_mask _ _ _ _ _ _).trans rfl, fun _ => by
    show Instr.xor _ _ _ = _
    simp only [encode, rdOf_rFormat, rs1Of_rFormat, rs2Of_rFormat]⟩

theorem srl (rd rs1 rs2 : Reg) : Statement (.srl rd rs1 rs2) :=
  ⟨(rFormat_mask _ _ _ _ _ _).trans rfl, fun _ => by
    show Instr.srl _ _ _ = _
    simp only [encode, rdOf_rFormat, rs1Of_rFormat, rs2Of_rFormat]⟩

theorem sra (rd rs1 rs2 : Reg) : Statement (.sra rd rs1 rs2) :=
  ⟨(rFormat_mask _ _ _ _ _ _).trans rfl, fun _ => by
    show Instr.sra _ _ _ = _
    simp only [encode, rdOf_rFormat, rs1Of_rFormat, rs2Of_rFormat]⟩

theorem or (rd rs1 rs2 : Reg) : Statement (.or rd rs1 rs2) :=
  ⟨(rFormat_mask _ _ _ _ _ _).trans rfl, fun _ => by
    show Instr.or _ _ _ = _
    simp only [encode, rdOf_rFormat, rs1Of_rFormat, rs2Of_rFormat]⟩

theorem and (rd rs1 rs2 : Reg) : Statement (.and rd rs1 rs2) :=
  ⟨(rFormat_mask _ _ _ _ _ _).trans rfl, fun _ => by
    show Instr.and _ _ _ = _
    simp only [encode, rdOf_rFormat, rs1Of_rFormat, rs2Of_rFormat]⟩

theorem ecall : Statement .ecall :=
  ⟨by decide, fun _ => rfl⟩

theorem ebreak : Statement .ebreak :=
  ⟨by decide, fun _ => rfl⟩

end Sys2Proof.Laws.RowOfEncode
end

