-- ==== Sys2Proof/Laws/Step.lean ====
section
/-! SUPPORT. One lemma for each of `singleStep`, `runStep`, `hostStep` and `step` that says all it can do. -/

namespace Sys2Proof.Machine

/-! ### The single step (40_step.md R130 to R134) -/

/-- Everything a single step that answers a next state has done. -/
theorem singleStep_next {s t : State} (h : singleStep s = .next t) :
    (translate s.pages (vpnOf s.pc) = none ∧ t = s.raise (.pageFaultMiss s.pc s.pc)) ∨
    (∃ i, Runs s i ∧ exec i s = .next t) ∨
    (∃ w e, fetch s = .done w ∧ decodeWord w = .error e ∧ t = s.raise .illegalInstruction) := by
  rcases memRead_cases s s.pc with ⟨hm, e⟩ | ⟨_, -, -, e⟩ | ⟨_, -, -, e⟩ <;> rw [singleStep, fetch, e] at h
  · rw [afterMmu_fault] at h
    injection h with h
    exact .inl ⟨hm, h.symm⟩
  · simp [afterMmu_noMeaning] at h
  · rw [afterMmu_done] at h
    cases hd : decodeWord (s.mem.readWord s.pc.toNat) with
    | ok i =>
      rw [hd] at h
      exact .inr (.inl ⟨i, ⟨_, e, hd⟩, h⟩)
    | error r =>
      rw [hd] at h
      injection h with h
      exact .inr (.inr ⟨_, r, e, hd, h.symm⟩)

/-- The step of a fetched and decoded instruction is its execution (R133). -/
theorem singleStep_runs {s : State} {i : Instr} (h : Runs s i) : singleStep s = exec i s := by
  obtain ⟨w, hf, hd⟩ := h
  rw [singleStep, hf, afterMmu_done, hd]

/-- A single step is refused only where a fetch or a word access runs past the end of a mapped page. -/
theorem singleStep_refused {s : State} {r : Refusal} (h : singleStep s = .refused r) :
    r = .wordPastPageEnd ∧ (pastPageEnd s.pc = true ∨
      ∃ i a, Runs s i ∧ wordAccess i s = some a ∧ pastPageEnd a = true) := by
  rcases memRead_cases s s.pc with ⟨-, e⟩ | ⟨_, -, he, e⟩ | ⟨_, -, -, e⟩ <;> rw [singleStep, fetch, e] at h
  · simp [afterMmu_fault] at h
  · rw [afterMmu_noMeaning] at h
    injection h with h
    exact ⟨h.symm, .inl he⟩
  · rw [afterMmu_done] at h
    cases hd : decodeWord (s.mem.readWord s.pc.toNat) with
    | ok i =>
      rw [hd] at h
      obtain ⟨hr, a, ha, he⟩ := exec_refused h
      exact ⟨hr, .inr ⟨i, a, ⟨_, e, hd⟩, ha, he⟩⟩
    | error r =>
      rw [hd] at h
      cases h

theorem singleStep_keeps {s t : State} (h : singleStep s = .next t) :
    t.config = s.config ∧ t.counter = s.counter ∧ t.cycles = s.cycles ∧ t.pages = s.pages ∧
      t.running = s.running ∧ t.host = s.host := by
  rcases singleStep_next h with ⟨-, rfl⟩ | ⟨i, -, h⟩ | ⟨_, _, -, -, rfl⟩
  · simp
  · exact exec_keeps h
  · simp

/-- The bytes a single step leaves: those of `s`, but for one word of a ReadWrite page where a store completed. -/
theorem singleStep_mem {s t : State} (h : singleStep s = .next t) :
    t.mem = s.mem ∨ ∃ i a w, Runs s i ∧ isStore i = true ∧ translate s.pages (vpnOf a) = some .readWrite ∧
      pastPageEnd a = false ∧ t.mem = s.mem.writeWord a.toNat w ∧ t.pc = s.pc + 4 ∧ t.event = .none := by
  rcases singleStep_next h with ⟨-, rfl⟩ | ⟨i, hi, h⟩ | ⟨_, _, -, -, rfl⟩
  · exact .inl rfl
  · rcases exec_next h with ⟨_, _, _, -, -, rfl, -⟩ | ⟨_, -, -, rfl, -⟩ | ⟨a, w, hs, hp, he, rfl⟩ | ⟨_, -, rfl⟩ |
      ⟨_, -, -, rfl⟩ | ⟨-, rfl⟩ | ⟨-, rfl⟩
    · exact .inl (by simp)
    · exact .inl rfl
    · exact .inr ⟨i, a, w, hi, hs, hp, he, rfl, rfl, rfl⟩
    · exact .inl rfl
    · exact .inl rfl
    · exact .inl rfl
    · exact .inl rfl
  · exact .inl rfl

/-- No step leaves Clock: only the run loop returns it (60_exceptions.md R216). -/
theorem singleStep_not_clock {s t : State} (h : singleStep s = .next t) : t.event ≠ .clock := by
  rcases singleStep_next h with ⟨-, rfl⟩ | ⟨i, -, h⟩ | ⟨_, _, -, -, rfl⟩
  · simp
  · rcases exec_next h with ⟨_, _, _, -, -, rfl, -⟩ | ⟨_, -, -, rfl, -⟩ | ⟨_, _, -, -, -, rfl⟩ | ⟨_, -, rfl⟩ |
      ⟨_, -, -, rfl⟩ | ⟨-, rfl⟩ | ⟨-, rfl⟩ <;> simp
  · simp

/-- A single step, like an instruction, is a function of what it reads; `V` carries the other fields over. -/
theorem singleStep_congr {s u : State} {V : State → State} (h : SameForExec s u)
    (hV : ∀ regs pc mem ev, { u with regs := regs, pc := pc, mem := mem, event := ev } =
      V { s with regs := regs, pc := pc, mem := mem, event := ev }) :
    singleStep u = mapNext V (singleStep s) := by
  have hraise : ∀ e, (.next (u.raise e) : Answer) = mapNext V (.next (s.raise e)) := by
    intro e
    have := hV s.regs s.pc s.mem e
    rw [← h.regs, ← h.pc, ← h.mem] at this
    have hs : { s with regs := u.regs, pc := u.pc, mem := u.mem, event := e } = s.raise e := by
      rw [h.regs, h.pc, h.mem]
      rfl
    rw [hs] at this
    exact congrArg _ this
  rw [singleStep, singleStep, fetch, fetch, h.pc, memRead_congr h.pages h.mem]
  cases memRead s s.pc with
  | done w =>
    rw [afterMmu_done, afterMmu_done]
    cases decodeWord w with
    | ok i => exact exec_congr i h hV
    | error r => exact hraise _
  | fault f =>
    rw [afterMmu_fault, afterMmu_fault, h.pc]
    exact hraise _
  | noMeaning => rfl

/-! ### The run loop (60_exceptions.md R223) -/

/-- When the clock fires, as a proposition (R223). -/
theorem fires_iff (c : Config) (n : Nat) :
    Config.fires c n = true ↔ (c.clockFire = .exceeds ∧ c.period < n) ∨ (c.clockFire = .reaches ∧ c.period ≤ n) := by
  unfold Config.fires
  split <;> simp_all

theorem runStep_next {s u : State} (h : runStep s = .next u) : ∃ t, singleStep s = .next t ∧ u = t.afterStep := by
  cases hs : singleStep s with
  | next t =>
    rw [runStep, hs] at h
    injection h with h
    exact ⟨t, rfl, h.symm⟩
  | fault r => cases r
  | refused r =>
    rw [runStep, hs] at h
    cases h

theorem runStep_of_next {s t : State} (h : singleStep s = .next t) : runStep s = .next t.afterStep := by
  rw [runStep, h]

theorem runStep_refused {s : State} {r : Refusal} (h : runStep s = .refused r) : singleStep s = .refused r := by
  cases hs : singleStep s with
  | next t =>
    rw [runStep, hs] at h
    cases h
  | fault r => cases r
  | refused r' =>
    rw [runStep, hs] at h
    injection h with h
    rw [h]

theorem step_running {s : State} (h : s.running = true) : step s = runStep s := by rw [step, if_pos h]

theorem step_idle {s : State} (h : s.running = false) : step s = hostStep s := by rw [step, if_neg (by simp [h])]

/-- After a turn of the run loop: both counters, and the event and `running` by whether the clock fires. -/
theorem afterStep_cases (t : State) :
    (Config.fires t.config (t.counter + 1) = true ∧
      t.afterStep = { t with cycles := t.cycles + 1, counter := 0, event := .clock, running := false }) ∨
    (Config.fires t.config (t.counter + 1) = false ∧
      t.afterStep = { t with cycles := t.cycles + 1, counter := t.counter + 1,
                             running := t.running && decide (t.event = .none) }) := by
  cases h : Config.fires t.config (t.counter + 1) with
  | true => exact .inl ⟨rfl, State.afterStep_fires t h⟩
  | false => exact .inr ⟨rfl, State.afterStep_quiet t h⟩

/-! ### Repeated steps -/

/-- A run that has returned takes no further turn. -/
theorem runTurns_idle (n : Nat) {s : State} (h : s.running = false) : runTurns n s = .next s := by
  cases n with
  | zero => rfl
  | succ n => rw [runTurns, if_neg (by simp [h])]

theorem run_succ_next (M : Host.Core) (n : Nat) {x y : M.State} (h : M.step x = .next y) :
    M.run (n + 1) x = M.run n y := by
  simp only [Host.Core.run, h]

theorem run_succ_refused (M : Host.Core) (n : Nat) {x : M.State} {r : M.Refusal} (h : M.step x = .refused r) :
    M.run (n + 1) x = .refused r := by
  simp only [Host.Core.run, h]

/-- `n + 1` steps of the machine are a step and `n` steps. -/
theorem core_run_next (n : Nat) {x y : State} (h : step x = .next y) :
    Host.Core.run Sys2Proof.core (n + 1) x = Host.Core.run Sys2Proof.core n y :=
  run_succ_next Sys2Proof.core n h

theorem core_run_refused (n : Nat) {x : State} {r : Refusal} (h : step x = .refused r) :
    Host.Core.run Sys2Proof.core (n + 1) x = .refused r :=
  run_succ_refused Sys2Proof.core n h

end Sys2Proof.Machine
end

