-- ==== Sys2Proof/Laws/Words.lean ====
section
/-! SUPPORT. The byte lanes of a Word: what a sub-word load extracts and what a sub-word store writes back. -/

namespace Sys2Proof.Machine

theorem byteOf_wordOfBytes (b0 b1 b2 b3 : Byte) :
    byteOf (wordOfBytes b0 b1 b2 b3) 0 = b0 ∧ byteOf (wordOfBytes b0 b1 b2 b3) 1 = b1 ∧
    byteOf (wordOfBytes b0 b1 b2 b3) 2 = b2 ∧ byteOf (wordOfBytes b0 b1 b2 b3) 3 = b3 := by
  simp only [byteOf, wordOfBytes, bits_or, Nat.mul_zero, Nat.mul_one, Nat.reduceMul]
  refine ⟨?_, ?_, ?_, ?_⟩
  · rw [bits_place_other 0 8 24 b3 (by decide), bits_place_other 0 8 16 b2 (by decide),
      bits_place_other 0 8 8 b1 (by decide), bits_place_same 0 b0 (by decide)]
    simp
  · rw [bits_place_other 8 8 24 b3 (by decide), bits_place_other 8 8 16 b2 (by decide),
      bits_place_same 8 b1 (by decide), bits_place_other 8 8 0 b0 (by decide)]
    simp
  · rw [bits_place_other 16 8 24 b3 (by decide), bits_place_same 16 b2 (by decide),
      bits_place_other 16 8 8 b1 (by decide), bits_place_other 16 8 0 b0 (by decide)]
    simp
  · rw [bits_place_same 24 b3 (by decide), bits_place_other 24 8 16 b2 (by decide),
      bits_place_other 24 8 8 b1 (by decide), bits_place_other 24 8 0 b0 (by decide)]
    simp

/-- Byte `k` of the Word at `a` is the byte at `a + k` (20_memory.md R60). -/
theorem byteOf_readWord (m : Memory) (a k : Nat) (hk : k < 4) : byteOf (m.readWord a) k = m.read (a + k) := by
  obtain ⟨h0, h1, h2, h3⟩ := byteOf_wordOfBytes (m.read a) (m.read (a + 1)) (m.read (a + 2)) (m.read (a + 3))
  interval_cases k
  · exact h0
  · exact h1
  · exact h2
  · exact h3

/-- A Word is its four bytes. -/
theorem eq_of_byteOf_eq {v w : Word} (h : ∀ k, k < 4 → byteOf v k = byteOf w k) : v = w := by
  rw [← wordOfBytes_bytesOf v, ← wordOfBytes_bytesOf w, h 0 (by decide), h 1 (by decide), h 2 (by decide),
    h 3 (by decide)]

/-! ### Extraction (42_mem.md R171) -/

/-- The low byte of a Word shifted right by `k` bytes is its byte `k`. -/
theorem low_byte_shift (w : Word) (k : Nat) : bits (w >>> (8 * k)) 0 8 = byteOf w k := by
  apply BitVec.eq_of_getLsbD_eq
  intro i hi
  simp [bits, byteOf]

/-- The low half-word of a Word shifted right by `k` bytes is its bytes `k` and `k + 1`. -/
theorem low_half_shift (w : Word) (k : Nat) :
    bits (w >>> (8 * k)) 0 16 = (byteOf w (k + 1)).setWidth 16 <<< 8 ||| (byteOf w k).setWidth 16 := by
  apply BitVec.eq_of_getLsbD_eq
  intro i hi
  by_cases h8 : i < 8
  · simp [bits, byteOf, hi, h8]
  · have e : 8 * (k + 1) + (i - 8) = 8 * k + i := by omega
    have h1 : i - 8 < 8 := by omega
    have h2 : i - 8 < 16 := by omega
    simp [bits, byteOf, hi, h8, e, h1]

/-- Byte 4 of a Word is past its end. -/
theorem byteOf_four (w : Word) : byteOf w 4 = 0 := by
  apply BitVec.eq_of_getLsbD_eq
  intro i hi
  simp [byteOf, bits]

/-- The byte a byte load extracts is the byte at `ea`. -/
theorem extracted_byte (m : Memory) (ea : Word) :
    bits (m.readWord (containingWord ea).toNat >>> bitOffset ea) 0 8 = m.read ea.toNat := by
  rw [bitOffset_eq, low_byte_shift, byteOf_readWord _ _ _ (by omega), containingWord_toNat]
  congr 1
  omega

/-- The half-word a half-word load extracts away from offset 3 is the bytes at `ea` and `ea + 1`. -/
theorem extracted_half (m : Memory) (ea : Word) (h : ea.toNat % 4 ≤ 2) :
    bits (m.readWord (containingWord ea).toNat >>> bitOffset ea) 0 16 =
      (m.read (ea.toNat + 1)).setWidth 16 <<< 8 ||| (m.read ea.toNat).setWidth 16 := by
  rw [bitOffset_eq, low_half_shift, byteOf_readWord _ _ _ (by omega), byteOf_readWord _ _ _ (by omega),
    containingWord_toNat]
  congr 4 <;> omega

/-- At offset 3 it is the byte at `ea` with zeros above it (R173). -/
theorem extracted_half_last (m : Memory) (ea : Word) (h : ea.toNat % 4 = 3) :
    bits (m.readWord (containingWord ea).toNat >>> bitOffset ea) 0 16 = (m.read ea.toNat).setWidth 16 := by
  rw [bitOffset_eq, low_half_shift, h, byteOf_four, byteOf_readWord _ _ _ (by omega), containingWord_toNat, h]
  have : ea.toNat - 3 + 3 = ea.toNat := by omega
  rw [this]
  simp

/-! ### Merging (42_mem.md R177, R179) -/

theorem byteOf_or (v w : Word) (k : Nat) : byteOf (v ||| w) k = byteOf v k ||| byteOf w k := bits_or v w _ _

/-- Byte `j` of a Word shifted left by `k` bytes. -/
theorem byteOf_shiftLeft (w : Word) (k j : Nat) (hj : j < 4) :
    byteOf (w <<< (8 * k)) j = if j < k then 0 else byteOf w (j - k) := by
  apply BitVec.eq_of_getLsbD_eq
  intro i hi
  have h32 : 8 * j + i < 32 := by omega
  by_cases h : j < k
  · have : 8 * j + i < 8 * k := by omega
    simp [byteOf, bits, h, hi, this]
  · have h1 : ¬8 * j + i < 8 * k := by omega
    have e : 8 * j + i - 8 * k = 8 * (j - k) + i := by omega
    simp [byteOf, bits, h, hi, h1, e, h32, -BitVec.getLsbD_eq_getElem]

/-- Clearing `n` bytes from byte `k` up clears exactly those bytes. -/
theorem byteOf_clear_byte (old : Word) (k j : Nat) (hk : k < 4) (hj : j < 4) :
    byteOf (old &&& ~~~((0x000000FF : Word) <<< (8 * k))) j = if j = k then 0 else byteOf old j := by
  interval_cases k <;> interval_cases j <;> (unfold byteOf bits; ext i hi; interval_cases i <;> simp)

theorem byteOf_clear_half (old : Word) (k j : Nat) (hk : k < 4) (hj : j < 4) :
    byteOf (old &&& ~~~((0x0000FFFF : Word) <<< (8 * k))) j = if j = k ∨ j = k + 1 then 0 else byteOf old j := by
  interval_cases k <;> interval_cases j <;> (unfold byteOf bits; ext i hi; interval_cases i <;> simp)

theorem byteOf_low_byte (src : Word) (j : Nat) (hj : j < 4) :
    byteOf (src &&& 0xFF) j = if j = 0 then byteOf src 0 else 0 := by
  interval_cases j <;> (unfold byteOf bits; ext i hi; interval_cases i <;> simp)

theorem byteOf_low_half (src : Word) (j : Nat) (hj : j < 4) :
    byteOf (src &&& 0xFFFF) j = if j < 2 then byteOf src j else 0 := by
  interval_cases j <;> (unfold byteOf bits; ext i hi; interval_cases i <;> simp)

/-- The bytes SB writes back (42_mem.md R177). -/
theorem byteOf_mergeByte (src old : Word) (k j : Nat) (hk : k < 4) (hj : j < 4) :
    byteOf (mergeByte (8 * k) src old) j = if j = k then byteOf src 0 else byteOf old j := by
  rw [mergeByte, byteOf_or, byteOf_clear_byte old k j hk hj, byteOf_shiftLeft _ k j hj]
  by_cases h : j = k
  · subst h
    rw [byteOf_low_byte src _ (by omega)]
    simp
  · by_cases hlt : j < k
    · simp [h, hlt]
    · have : j - k ≠ 0 := by omega
      rw [byteOf_low_byte src _ (by omega)]
      simp [h, this]

/-- The bytes SH writes back (42_mem.md R179). -/
theorem byteOf_mergeHalf (mask16 : Bool) (src old : Word) (k j : Nat) (hk : k < 4) (hj : j < 4) :
    byteOf (mergeHalf mask16 (8 * k) src old) j =
      if j < k then byteOf old j
      else if j < k + 2 then byteOf src (j - k)
      else if mask16 then byteOf old j else byteOf old j ||| byteOf src (j - k) := by
  rw [mergeHalf, byteOf_or, byteOf_clear_half old k j hk hj, byteOf_shiftLeft _ k j hj]
  by_cases hlt : j < k
  · have h0 : ¬(j = k ∨ j = k + 1) := by omega
    simp [hlt, h0]
  have e : byteOf (if mask16 then src &&& 0xFFFF else src) (j - k) =
      if mask16 then (if j - k < 2 then byteOf src (j - k) else 0) else byteOf src (j - k) := by
    cases mask16
    · rfl
    · exact byteOf_low_half src _ (by omega)
  rw [e]
  by_cases h2 : j < k + 2
  · have h0 : j = k ∨ j = k + 1 := by omega
    have h1 : j - k < 2 := by omega
    simp [hlt, h0, h2, h1]
  · have h0 : ¬(j = k ∨ j = k + 1) := by omega
    have h1 : ¬j - k < 2 := by omega
    cases mask16 <;> simp [hlt, h0, h2, h1]

/-! ### Memory by words -/

/-- Every byte after a Word is written, by its place in the Word (20_memory.md R67). -/
theorem Memory.read_writeWord_range (m : Memory) (a x : Nat) (w : Word) (ha : a + 4 ≤ 2 ^ 32) (h : Memory.wf m) :
    (m.writeWord a w).read x = if a ≤ x ∧ x < a + 4 then byteOf w (x - a) else m.read x := by
  rw [Memory.read_writeWord m a x w ha h]
  by_cases hx : a ≤ x ∧ x < a + 4
  · obtain ⟨k, rfl⟩ := Nat.exists_eq_add_of_le hx.1
    have hk : k < 4 := by omega
    interval_cases k <;> simp
  · have h0 : x ≠ a := by omega
    have h1 : x ≠ a + 1 := by omega
    have h2 : x ≠ a + 2 := by omega
    have h3 : x ≠ a + 3 := by omega
    simp [hx, h0, h1, h2, h3]

/-- A Word is read back as it was written (20_memory.md R67). -/
theorem Memory.readWord_writeWord (m : Memory) (a : Nat) (w : Word) (ha : a + 4 ≤ 2 ^ 32) (h : Memory.wf m) :
    (m.writeWord a w).readWord a = w := by
  apply eq_of_byteOf_eq
  intro k hk
  rw [byteOf_readWord _ _ _ hk, Memory.read_writeWord_range m a _ w ha h, if_pos (by omega), Nat.add_sub_cancel_left]

end Sys2Proof.Machine
end

