-- ==== Sys2Proof/Tests/Slice0.lean ====
section
/-! SUPPORT. Tests on fixed values: the well-formedness checks; a word of every constructor and the illegal words; one
step of each instruction; the run loop, the host and the interface; and for every statement with hypotheses a concrete
state that meets them. Words and expected values are those of 95_test_vectors.md. -/

namespace Sys2Proof.Tests

open Sys2Proof.Machine

/-! ### Well-formedness: each check refuses an ill-formed term -/

theorem test_wellFormed_jal_odd : (Instr.jal 1 3).wellFormed = false := by decide
theorem test_wellFormed_jal_even : (Instr.jal 1 2).wellFormed = true := by decide
theorem test_wellFormed_beq_odd : (Instr.beq 1 2 5).wellFormed = false := by decide
theorem test_wellFormed_bne_odd : (Instr.bne 1 2 5).wellFormed = false := by decide
theorem test_wellFormed_blt_odd : (Instr.blt 1 2 5).wellFormed = false := by decide
theorem test_wellFormed_bge_odd : (Instr.bge 1 2 5).wellFormed = false := by decide
theorem test_wellFormed_bltu_odd : (Instr.bltu 1 2 5).wellFormed = false := by decide
theorem test_wellFormed_bgeu_odd : (Instr.bgeu 1 2 5).wellFormed = false := by decide
theorem test_wellFormed_beq_even : (Instr.beq 1 2 (-4096)).wellFormed = true := by decide

/-! ### Decoding: a word of every row, written out by the formats of 30_encoding.md R92 -/

theorem test_decode_lui : decodeWord 0b10101011110011011110_00101_0110111 = .ok (.lui 5 0xABCDE) := by decide
theorem test_decode_auipc : decodeWord 0b00000000000000000001_00110_0010111 = .ok (.auipc 6 1) := by decide
theorem test_decode_jal : decodeWord 0b1_1111111100_1_11111111_00000_1101111 = .ok (.jal 0 (-8)) := by decide
theorem test_decode_jalr : decodeWord 0b000000000011_00110_000_00101_1100111 = .ok (.jalr 5 6 3) := by decide
theorem test_decode_beq : decodeWord 0b0_111111_00010_00001_000_1111_1_1100011 = .ok (.beq 1 2 4094) := by decide
theorem test_decode_bne : decodeWord 0b1_111111_00010_00001_001_1110_1_1100011 = .ok (.bne 1 2 (-4)) := by decide
theorem test_decode_blt : decodeWord 0b0_000000_00010_00001_100_1000_0_1100011 = .ok (.blt 1 2 16) := by decide
theorem test_decode_bge : decodeWord 0b0_000000_00010_00001_101_1000_0_1100011 = .ok (.bge 1 2 16) := by decide
theorem test_decode_bltu : decodeWord 0b0_000000_00010_00001_110_1000_0_1100011 = .ok (.bltu 1 2 16) := by decide
theorem test_decode_bgeu : decodeWord 0b0_000000_00010_00001_111_1000_0_1100011 = .ok (.bgeu 1 2 16) := by decide
theorem test_decode_lb : decodeWord 0b000000000011_00001_000_00101_0000011 = .ok (.lb 5 1 3) := by decide
theorem test_decode_lh : decodeWord 0b000000000010_00001_001_00101_0000011 = .ok (.lh 5 1 2) := by decide
theorem test_decode_lw : decodeWord 0b111111111100_00001_010_00101_0000011 = .ok (.lw 5 1 (-4)) := by decide
theorem test_decode_lbu : decodeWord 0b000000000011_00001_100_00101_0000011 = .ok (.lbu 5 1 3) := by decide
theorem test_decode_lhu : decodeWord 0b000000000010_00001_101_00101_0000011 = .ok (.lhu 5 1 2) := by decide
theorem test_decode_sb : decodeWord 0b0000000_00010_00001_000_00111_0100011 = .ok (.sb 2 1 7) := by decide
theorem test_decode_sh : decodeWord 0b0000000_00010_00001_001_00010_0100011 = .ok (.sh 2 1 2) := by decide
theorem test_decode_sw : decodeWord 0b1111111_00010_00001_010_11100_0100011 = .ok (.sw 2 1 (-4)) := by decide
theorem test_decode_addi : decodeWord 0b100000000000_00001_000_00010_0010011 = .ok (.addi 2 1 (-2048)) := by decide
theorem test_decode_slti : decodeWord 0b111111111111_00001_010_00011_0010011 = .ok (.slti 3 1 (-1)) := by decide
theorem test_decode_sltiu : decodeWord 0b111111111111_00001_011_00011_0010011 = .ok (.sltiu 3 1 (-1)) := by decide
theorem test_decode_xori : decodeWord 0b111111111111_00001_100_00100_0010011 = .ok (.xori 4 1 (-1)) := by decide
theorem test_decode_ori : decodeWord 0b111100000000_00001_110_00100_0010011 = .ok (.ori 4 1 (-256)) := by decide
theorem test_decode_andi : decodeWord 0b000011111111_00001_111_00100_0010011 = .ok (.andi 4 1 0x0FF) := by decide
theorem test_decode_slli : decodeWord 0b0000000_00100_00001_001_00101_0010011 = .ok (.slli 5 1 4) := by decide
theorem test_decode_srli : decodeWord 0b0000000_11111_00001_101_00101_0010011 = .ok (.srli 5 1 31) := by decide
theorem test_decode_srai : decodeWord 0b0100000_00100_00001_101_00101_0010011 = .ok (.srai 5 1 4) := by decide
theorem test_decode_add : decodeWord 0b0000000_00010_00001_000_00011_0110011 = .ok (.add 3 1 2) := by decide
theorem test_decode_sub : decodeWord 0b0100000_00010_00001_000_00011_0110011 = .ok (.sub 3 1 2) := by decide
theorem test_decode_sll : decodeWord 0b0000000_00010_00001_001_00011_0110011 = .ok (.sll 3 1 2) := by decide
theorem test_decode_slt : decodeWord 0b0000000_00010_00001_010_00011_0110011 = .ok (.slt 3 1 2) := by decide
theorem test_decode_sltu : decodeWord 0b0000000_00010_00001_011_00011_0110011 = .ok (.sltu 3 1 2) := by decide
theorem test_decode_xor : decodeWord 0b0000000_00010_00001_100_00011_0110011 = .ok (.xor 3 1 2) := by decide
theorem test_decode_srl : decodeWord 0b0000000_00010_00001_101_00011_0110011 = .ok (.srl 3 1 2) := by decide
theorem test_decode_sra : decodeWord 0b0100000_00010_00001_101_00011_0110011 = .ok (.sra 3 1 2) := by decide
theorem test_decode_or : decodeWord 0b0000000_00010_00001_110_00011_0110011 = .ok (.or 3 1 2) := by decide
theorem test_decode_and : decodeWord 0b0000000_00010_00001_111_00011_0110011 = .ok (.and 3 1 2) := by decide
theorem test_decode_ecall : decodeWord 0b000000000000_00000_000_00000_1110011 = .ok .ecall := by decide
theorem test_decode_ebreak : decodeWord 0b000000000001_00000_000_00000_1110011 = .ok .ebreak := by decide

/-- The words of V-DEC: every one matches no row. -/
theorem test_decode_illegal :
    ([0x00000000, 0xFFFFFFFF, 0x00010001, 0x0FF0000F, 0x0000100F, 0xC00022F3, 0x30009073, 0x30200073, 0x10200073,
      0x10500073, 0x000000F3, 0x00008073, 0x00200073, 0x022081B3, 0x0220C1B3, 0x02409293, 0x4240D293, 0x40409293,
      0x4020C1B3, 0x402091B3, 0x00009067, 0x0020A463, 0x0020B463, 0x0000B283, 0x0000E283, 0x0020B023, 0x0000A287,
      0x0020A1AF, 0x0010809B, 0x0000000B] : List Word).all (fun w => decodeWord w = .error .illegal) = true := by
  decide

theorem test_decodeBytes_rest : decodeBytes [0x93, 0x00, 0x50, 0x00, 0x13] = .ok (.addi 1 0 5, [0x13]) := by decide
theorem test_decodeBytes_truncated : decodeBytes [0x93, 0x00, 0x50] = .error .truncated := by decide
theorem test_decodeTableWord : decodeTableWord 32 0x002081B3 = some (.add 3 1 2) := by decide
theorem test_decodeTableWord_illegal : decodeTableWord 32 0x0FF0000F = none := by decide
theorem test_encode_bne : encode (.bne 1 2 (-4)) = 0xFE209EE3 := by decide
theorem test_encode_jal : encode (.jal 0 (-8)) = 0xFF9FF06F := by decide

/-! ### One step of each instruction: the start state of 95_test_vectors.md section 0 -/

/-- Page 1 ReadWrite with `w` at 0x1000, page 2 with `tag` and its eight bytes, a run in progress at 0x1000. -/
def demo (tag : Perm) (w x1 x2 : Word) : State :=
  let s := State.insertPage State.reset 1 .readWrite (bytesOfWord w)
  let s := State.insertPage s 2 tag [0x80, 0x7F, 0xFE, 0x81, 0x11, 0x22, 0x33, 0x44]
  { (s.writeReg 1 x1).writeReg 2 x2 with pc := 0x1000, running := true }

def nextOf : Answer → Option State
  | .next t => some t
  | .fault _ => none
  | .refused _ => none

def refusalOf : Answer → Option Refusal
  | .next _ => none
  | .fault _ => none
  | .refused r => some r

/-- One step of `demo`: the register `r`, pc and the event after it. -/
def stepReg (w x1 x2 : Word) (r : Reg) : Option (Word × Word × Event) :=
  (nextOf (step (demo .readWrite w x1 x2))).map (fun t => (t.readReg r, t.pc, t.event))

/-- One step of `demo`: the bytes from 0x2000 after it, and pc and the event. -/
def stepBytes (mask16 : Bool) (tag : Perm) (w x1 x2 : Word) : Option (List Byte × Word × Event) :=
  let s := demo tag w x1 x2
  (nextOf (step { s with config := { s.config with shMask16 := mask16 } })).map (fun t =>
    ((List.range 8).map (fun k => t.mem.read (0x2000 + k)), t.pc, t.event))

theorem test_lui : stepReg 0xABCDE2B7 0 0 5 = some (0xabcde000, 0x1004, .none) := by decide
theorem test_lui_x0 : stepReg 0xFFFFF037 0 0 0 = some (0, 0x1004, .none) := by decide
theorem test_auipc : stepReg 0x00001317 0 0 6 = some (0x2000, 0x1004, .none) := by decide
theorem test_auipc_wraps : stepReg 0xFFFFF317 0 0 6 = some (0, 0x1004, .none) := by decide
theorem test_addi : stepReg 0x7FF08113 0x7fffffff 0 2 = some (0x800007fe, 0x1004, .none) := by decide
theorem test_addi_negative : stepReg 0x80008113 0x800 0 2 = some (0, 0x1004, .none) := by decide
theorem test_slti : stepReg 0xFFF0A193 0xfffffffe 0 3 = some (1, 0x1004, .none) := by decide
theorem test_slti_signed : stepReg 0x0010A193 0x80000000 0 3 = some (1, 0x1004, .none) := by decide
theorem test_sltiu_sign_extends : stepReg 0xFFF0B193 0xfffffffe 0 3 = some (1, 0x1004, .none) := by decide
theorem test_sltiu_unsigned : stepReg 0x0010B193 0x80000000 0 3 = some (0, 0x1004, .none) := by decide
theorem test_xori : stepReg 0xFFF0C213 0x12345678 0 4 = some (0xedcba987, 0x1004, .none) := by decide
theorem test_xori_low : stepReg 0x0F00C213 0xff 0 4 = some (0xf, 0x1004, .none) := by decide
theorem test_ori : stepReg 0x0F00E213 0x12345608 0 4 = some (0x123456f8, 0x1004, .none) := by decide
theorem test_ori_negative : stepReg 0xF000E213 0x12345678 0 4 = some (0xffffff78, 0x1004, .none) := by decide
theorem test_andi : stepReg 0x0FF0F213 0x12345678 0 4 = some (0x78, 0x1004, .none) := by decide
theorem test_andi_negative : stepReg 0xF000F213 0x12345678 0 4 = some (0x12345600, 0x1004, .none) := by decide
theorem test_slli : stepReg 0x00409293 0x12345678 0 5 = some (0x23456780, 0x1004, .none) := by decide
theorem test_slli_31 : stepReg 0x01F09293 3 0 5 = some (0x80000000, 0x1004, .none) := by decide
theorem test_srli : stepReg 0x0040D293 0x87654321 0 5 = some (0x8765432, 0x1004, .none) := by decide
theorem test_srli_31 : stepReg 0x01F0D293 0x80000000 0 5 = some (1, 0x1004, .none) := by decide
theorem test_srai : stepReg 0x4040D293 0x87654321 0 5 = some (0xf8765432, 0x1004, .none) := by decide
theorem test_srai_positive : stepReg 0x4040D293 0x77654321 0 5 = some (0x7765432, 0x1004, .none) := by decide
theorem test_add_wraps : stepReg 0x002081B3 0xffffffff 1 3 = some (0, 0x1004, .none) := by decide
theorem test_add_same : stepReg 0x001080B3 0x80000001 0 1 = some (2, 0x1004, .none) := by decide
theorem test_sub : stepReg 0x402081B3 5 0xa 3 = some (0xfffffffb, 0x1004, .none) := by decide
theorem test_sub_overflow : stepReg 0x402081B3 0x80000000 1 3 = some (0x7fffffff, 0x1004, .none) := by decide
theorem test_sll_32 : stepReg 0x002091B3 1 0x20 3 = some (1, 0x1004, .none) := by decide
theorem test_sll_masks : stepReg 0x002091B3 0x12345678 0xffffffe4 3 = some (0x23456780, 0x1004, .none) := by decide
theorem test_slt : stepReg 0x0020A1B3 0xffffffff 1 3 = some (1, 0x1004, .none) := by decide
theorem test_slt_equal : stepReg 0x0020A1B3 7 7 3 = some (0, 0x1004, .none) := by decide
theorem test_sltu : stepReg 0x0020B1B3 0xffffffff 1 3 = some (0, 0x1004, .none) := by decide
theorem test_sltu_less : stepReg 0x0020B1B3 1 0xffffffff 3 = some (1, 0x1004, .none) := by decide
theorem test_xor : stepReg 0x0020C1B3 0xff00ff00 0xff00ff0 3 = some (0xf0f0f0f0, 0x1004, .none) := by decide
theorem test_srl : stepReg 0x0020D1B3 0x80000000 0x21 3 = some (0x40000000, 0x1004, .none) := by decide
theorem test_sra : stepReg 0x4020D1B3 0x80000000 0x1f 3 = some (0xffffffff, 0x1004, .none) := by decide
theorem test_sra_positive : stepReg 0x4020D1B3 0x40000000 0x1e 3 = some (1, 0x1004, .none) := by decide
theorem test_or : stepReg 0x0020E1B3 0xff00ff00 0xff00ff0 3 = some (0xfff0fff0, 0x1004, .none) := by decide
theorem test_and : stepReg 0x0020F1B3 0xff00ff00 0xff00ff0 3 = some (0xf000f00, 0x1004, .none) := by decide
theorem test_lb : stepReg 0x00308283 0x2000 0 5 = some (0xffffff81, 0x1004, .none) := by decide
theorem test_lb_negative_offset : stepReg 0xFFF08283 0x2008 0 5 = some (0x44, 0x1004, .none) := by decide
theorem test_lbu : stepReg 0x0020C283 0x2000 0 5 = some (0xfe, 0x1004, .none) := by decide
theorem test_lbu_page_end : stepReg 0x0000C283 0x2fff 0 5 = some (0, 0x1004, .none) := by decide
theorem test_lh : stepReg 0x00109283 0x2000 0 5 = some (0xfffffe7f, 0x1004, .none) := by decide
theorem test_lh_offset_3 : stepReg 0x00309283 0x2000 0 5 = some (0x81, 0x1004, .none) := by decide
theorem test_lhu : stepReg 0x0020D283 0x2000 0 5 = some (0x81fe, 0x1004, .none) := by decide
theorem test_lhu_offset_3 : stepReg 0x0030D283 0x2000 0 5 = some (0x81, 0x1004, .none) := by decide
theorem test_lw_misaligned : stepReg 0x0010A283 0x2000 0 5 = some (0x1181fe7f, 0x1004, .none) := by decide
theorem test_lw_same : stepReg 0x0000A083 0x2000 0 1 = some (0x81fe7f80, 0x1004, .none) := by decide
theorem test_jal : stepReg 0x008000EF 0 0 1 = some (0x1004, 0x1008, .none) := by decide
theorem test_jal_far : stepReg 0x7FFFF0EF 0 0 1 = some (0x1004, 0x100ffe, .none) := by decide
theorem test_jalr_odd : stepReg 0x003082E7 0x2000 0 5 = some (0x1004, 0x2002, .none) := by decide
theorem test_jalr_same : stepReg 0x000080E7 0x3000 0 1 = some (0x1004, 0x3000, .none) := by decide
theorem test_beq : stepReg 0x00208463 5 5 0 = some (0, 0x1008, .none) := by decide
theorem test_beq_not : stepReg 0x00208463 5 6 0 = some (0, 0x1004, .none) := by decide
theorem test_bne : stepReg 0xFE209EE3 5 6 0 = some (0, 0xffc, .none) := by decide
theorem test_bne_not : stepReg 0xFE209EE3 5 5 0 = some (0, 0x1004, .none) := by decide
theorem test_blt : stepReg 0x0020C863 0xffffffff 1 0 = some (0, 0x1010, .none) := by decide
theorem test_blt_not : stepReg 0x0020C863 3 3 0 = some (0, 0x1004, .none) := by decide
theorem test_bge : stepReg 0x0020D863 3 3 0 = some (0, 0x1010, .none) := by decide
theorem test_bge_not : stepReg 0x0020D863 0xffffffff 1 0 = some (0, 0x1004, .none) := by decide
theorem test_bltu : stepReg 0x0020E863 1 0xffffffff 0 = some (0, 0x1010, .none) := by decide
theorem test_bltu_not : stepReg 0x0020E863 0xffffffff 1 0 = some (0, 0x1004, .none) := by decide
theorem test_bgeu : stepReg 0x0020F863 0xffffffff 1 0 = some (0, 0x1010, .none) := by decide
theorem test_bgeu_not : stepReg 0x0020F863 1 0xffffffff 0 = some (0, 0x1004, .none) := by decide
theorem test_ecall : stepReg 0x00000073 7 0 1 = some (7, 0x1004, .ecall) := by decide
theorem test_ebreak : stepReg 0x00100073 7 0 1 = some (7, 0x1000, .ebreak) := by decide
theorem test_sb :
    stepBytes false .readWrite 0x002080A3 0x2000 0x1234abcd =
      some ([0x80, 0xCD, 0xFE, 0x81, 0x11, 0x22, 0x33, 0x44], 0x1004, .none) := by decide
theorem test_sb_x0 :
    stepBytes true .readWrite 0x00008023 0x2000 0 =
      some ([0x00, 0x7F, 0xFE, 0x81, 0x11, 0x22, 0x33, 0x44], 0x1004, .none) := by decide
theorem test_sh_ors :
    stepBytes false .readWrite 0x00209023 0x2000 0x1234beef =
      some ([0xEF, 0xBE, 0xFE, 0x93, 0x11, 0x22, 0x33, 0x44], 0x1004, .none) := by decide
theorem test_sh_masked :
    stepBytes true .readWrite 0x00209023 0x2000 0x1234beef =
      some ([0xEF, 0xBE, 0xFE, 0x81, 0x11, 0x22, 0x33, 0x44], 0x1004, .none) := by decide
theorem test_sh_offset_1 :
    stepBytes false .readWrite 0x002090A3 0x2000 0x12beef =
      some ([0x80, 0xEF, 0xBE, 0x93, 0x11, 0x22, 0x33, 0x44], 0x1004, .none) := by decide
theorem test_sh_offset_3 :
    stepBytes false .readWrite 0x002091A3 0x2000 0x1234beef =
      some ([0x80, 0x7F, 0xFE, 0xEF, 0x11, 0x22, 0x33, 0x44], 0x1004, .none) := by decide
theorem test_sw :
    stepBytes false .readWrite 0x0020A0A3 0x2000 0xdeadbeef =
      some ([0x80, 0xEF, 0xBE, 0xAD, 0xDE, 0x22, 0x33, 0x44], 0x1004, .none) := by decide
theorem test_sw_perms :
    stepBytes false .readOnly 0x0020A023 0x2000 0xdeadbeef =
      some ([0x80, 0x7F, 0xFE, 0x81, 0x11, 0x22, 0x33, 0x44], 0x1000, .pageFaultPerms 0x2000 0x1000) := by decide
theorem test_sb_perms :
    stepBytes false .readOnly 0x002080A3 0x2000 0xdeadbeef =
      some ([0x80, 0x7F, 0xFE, 0x81, 0x11, 0x22, 0x33, 0x44], 0x1000, .pageFaultPerms 0x2001 0x1000) := by decide
theorem test_sh_miss :
    stepBytes false .readWrite 0x002090A3 0x3000 0xdeadbeef =
      some ([0x80, 0x7F, 0xFE, 0x81, 0x11, 0x22, 0x33, 0x44], 0x1000, .pageFaultMiss 0x3001 0x1000) := by decide

/-! ### Events, the fetch and the refusal -/

theorem test_lb_miss : stepReg 0x00308283 0x3000 0 5 = some (0, 0x1000, .pageFaultMiss 0x3003 0x1000) := by decide
theorem test_lw_miss : stepReg 0x0000A283 0x3FFE 0 5 = some (0, 0x1000, .pageFaultMiss 0x3FFE 0x1000) := by decide
theorem test_illegal : stepReg 0x0FF0000F 7 0 1 = some (7, 0x1000, .illegalInstruction) := by decide
theorem test_lw_page_end : stepReg 0x0000A283 0x2FFC 0 5 = some (0, 0x1004, .none) := by decide
theorem test_lw_past_page_end :
    refusalOf (step (demo .readWrite 0x0000A283 0x2FFD 0)) = some .wordPastPageEnd := by decide
theorem test_sw_past_page_end_readOnly :
    refusalOf (step (demo .readOnly 0x0020A023 0x2FFD 0)) = some .wordPastPageEnd := by decide
theorem test_fetch_miss :
    (nextOf (step { demo .readWrite 0 0 0 with pc := 0x5000 })).map (fun t => (t.pc, t.event)) =
      some (0x5000, .pageFaultMiss 0x5000 0x5000) := by decide
theorem test_fetch_past_page_end :
    refusalOf (step { demo .readWrite 0 0 0 with pc := 0x1FFE }) = some .wordPastPageEnd := by decide

/-! ### The clock, the host and the interface -/

theorem test_clock_exceeds :
    (nextOf (step { demo .readWrite 0x0000006F 0 0 with counter := 500 })).map (fun t => (t.counter, t.event)) =
      some (0, .clock) := by decide
theorem test_clock_not_yet :
    (nextOf (step { demo .readWrite 0x0000006F 0 0 with counter := 499 })).map (fun t => (t.counter, t.event)) =
      some (500, .none) := by decide
theorem test_clock_reaches :
    (nextOf (step { demo .readWrite 0x0000006F 0 0 with counter := 499, config := ⟨500, .reaches, false⟩ })).map
      (fun t => (t.counter, t.event, t.running)) = some (0, .clock, false) := by decide
theorem test_run_of_one_step :
    (nextOf (run 0x1000 { demo .readWrite 0x00000073 0 0 with config := ⟨0, .exceeds, false⟩ })).map
      (fun t => (t.pc, t.event, t.cycles, t.running)) = some (0x1004, .clock, 1, false) := by decide
theorem test_host_run :
    (nextOf (step { demo .readWrite 0 0 0 with running := false, host := [.run 0x2000] })).map
      (fun t => (t.pc, t.running, t.host)) = some (0x2000, true, []) := by decide
theorem test_host_register_32 :
    refusalOf (step { demo .readWrite 0 0 0 with running := false, host := [.writeReg 32 1] }) =
      some .registerIndexOutOfRange := by decide
theorem test_write_removes_entry : Memory.write [(1, 2), (3, 4)] 1 0 = [(3, 4)] := by decide
theorem test_write_inserts_in_order : Memory.write [(1, 2), (3, 4)] 2 9 = [(1, 2), (2, 9), (3, 4)] := by decide
theorem test_reset_idle : (nextOf (step State.reset)) = some State.reset := by decide

/-- The interface of the host: the word placed by `withFetchWord` is what the next step runs, right after reset. -/
theorem test_withFetchWord_addi :
    (nextOf (step (State.reset.withFetchWord 32 0x00500093))).map (fun t => (t.readReg 1, t.pc)) = some (5, 4) := by
  decide
theorem test_withFetchWord_ebreak :
    (nextOf (step (State.reset.withFetchWord 32 0x00100073))).map (fun t => (t.event, t.pc)) = some (.ebreak, 0) := by
  decide

/-! ### Witnesses: for every statement with hypotheses, a concrete state that meets them -/

/-- A state of a program, with canonical memory. -/
def w0 : State := demo .readWrite 0x00000073 0x2000 0xDEADBEEF

/-- The same with page 2 ReadOnly. -/
def wRO : State := demo .readOnly 0x0020A023 0x2000 0xDEADBEEF

theorem w0_wf : Memory.wf w0.mem := by decide

theorem witness_RegisterFileReadsAndWrites :
    (1 : Reg) ≠ 0 ∧ (31 : Reg) ≠ 1 ∧ w0.readRegNo 31 = some 0 ∧ w0.readRegNo 32 = none ∧
      (w0.writeRegNo 31 5).map (fun t => t.readReg 31) = some 5 ∧ w0.writeRegNo 32 5 = none := by decide
theorem witness_AluClassRunsItsRecord :
    aluSignals (.add 3 1 2) = some ⟨.add, .rs1 1, .rs2 2, 3⟩ ∧ instrClass (.lw 3 1 0) = .mem := by decide
/-- The page is mapped; the last clause at its boundary, offset 0xFFC. -/
theorem witness_LoadsReadAndExtend :
    translate w0.pages (vpnOf (w0.readReg 1 + (0x7FF : BitVec 12).signExtend 32)) = some .readWrite ∧
    translate w0.pages (vpnOf ((w0.writeReg 1 0x2FFC).readReg 1 + (0 : BitVec 12).signExtend 32)) = some .readWrite ∧
    ((w0.writeReg 1 0x2FFC).readReg 1 + (0 : BitVec 12).signExtend 32).toNat % 4096 ≤ 0xFFC := by decide
theorem witness_ByteLoadsDeliverTheByte :
    w0.byteAt (effectiveAddress w0 1 0) = some 0x80 ∧ w0.byteAt (effectiveAddress w0 1 3) = some 0x81 := by decide
/-- Offsets 0 and 2 for the first clause, offset 3 for the second. -/
theorem witness_HalfwordLoadsByOffset :
    (w0.byteAt (effectiveAddress w0 1 0) = some 0x80 ∧ (effectiveAddress w0 1 0).toNat % 4 ≤ 2 ∧
      w0.byteAt (effectiveAddress w0 1 0 + 1) = some 0x7F) ∧
    (w0.byteAt (effectiveAddress w0 1 2) = some 0xFE ∧ (effectiveAddress w0 1 2).toNat % 4 = 2 ∧
      w0.byteAt (effectiveAddress w0 1 2 + 1) = some 0x81) ∧
    (w0.byteAt (effectiveAddress w0 1 3) = some 0x81 ∧ (effectiveAddress w0 1 3).toNat % 4 = 3) := by decide
/-- At offset 0xFFF of an absent page. -/
theorem witness_LoadsFaultOnAbsentPage :
    translate w0.pages (vpnOf (effectiveAddress (w0.writeReg 1 0x3FFF) 1 0)) = none := by decide
theorem witness_StoresFaultOnAbsentOrReadOnlyPage :
    translate wRO.pages (vpnOf (effectiveAddress (wRO.writeReg 1 0x3FFF) 1 0)) = none ∧
    (translate wRO.pages (vpnOf (effectiveAddress (wRO.writeReg 1 0x2FFC) 1 0)) = some .readOnly ∧
      (effectiveAddress (wRO.writeReg 1 0x2FFC) 1 0).toNat % 4096 ≤ 0xFFC) := by decide
/-- The first offset past the boundary, on a page of either tag, and for the fetch. -/
theorem witness_WordAccessPastPageEndIsRefused :
    (translate w0.pages (vpnOf (effectiveAddress (w0.writeReg 1 0x2FFD) 1 0)) = some .readWrite ∧
      0xFFC < (effectiveAddress (w0.writeReg 1 0x2FFD) 1 0).toNat % 4096) ∧
    translate wRO.pages (vpnOf (effectiveAddress (wRO.writeReg 1 0x2FFD) 1 0)) = some .readOnly ∧
    ((State.mk w0.regs 0x1FFD w0.config 0 0 w0.pages w0.mem .none true []).running = true ∧
      translate w0.pages (vpnOf 0x1FFD) = some .readWrite ∧ 0xFFC < (0x1FFD : Word).toNat % 4096) := by decide
theorem witness_StoreByteEffect :
    Memory.wf w0.mem ∧ translate w0.pages (vpnOf (effectiveAddress w0 1 0)) = some .readWrite := by decide
/-- Each offset in the word, with SH_MASK16 false; the premises do not mention SH_MASK16. -/
theorem witness_StoreHalfwordEffect :
    Memory.wf w0.mem ∧ translate w0.pages (vpnOf (effectiveAddress w0 1 0)) = some .readWrite ∧
    ([0, 1, 2, 3] : List (BitVec 12)).map (fun o => (effectiveAddress w0 1 o).toNat % 4) = [0, 1, 2, 3] ∧
    translate w0.pages (vpnOf (effectiveAddress w0 1 3)) = some .readWrite ∧ w0.config.shMask16 = false := by decide
/-- At the boundary, offset 0xFFC. -/
theorem witness_StoreWordEffect :
    Memory.wf (w0.writeReg 1 0x2FFC).mem ∧
    translate (w0.writeReg 1 0x2FFC).pages (vpnOf (effectiveAddress (w0.writeReg 1 0x2FFC) 1 0)) = some .readWrite ∧
    (effectiveAddress (w0.writeReg 1 0x2FFC) 1 0).toNat % 4096 ≤ 0xFFC := by decide
theorem witness_MemAccessFollowsItsSteps :
    Memory.wf w0.mem ∧ translate w0.pages (vpnOf 0x3000) = none ∧
    (Memory.wf wRO.mem ∧ translate wRO.pages (vpnOf 0x2FFC) = some .readOnly) ∧
    translate w0.pages (vpnOf 0x2FFC) = some .readWrite ∧ (0x2FFC : Word).toNat % 4096 ≤ 0xFFC := by decide
theorem witness_WordRoundTripThroughTheMmu :
    Memory.wf w0.mem ∧ ∃ t w, memWrite w0 0x2001 0xDEADBEEF = .done t ∧
      vpnOf 0x2003 = vpnOf 0x2001 ∧ memRead t 0x2003 = .done w :=
  ⟨w0_wf, _, _, rfl, rfl, rfl⟩
theorem witness_ExecFrame : ∃ t, exec (.addi 3 1 5) w0 = .next t ∧ destOf (.addi 3 1 5) ≠ some 4 :=
  ⟨_, rfl, by decide⟩
theorem witness_NonStoresKeepMemory : isStore (.lw 5 1 0) = false ∧ ∃ t, exec (.lw 5 1 0) w0 = .next t :=
  ⟨rfl, _, rfl⟩
/-- The neighbouring byte for SB, the next word for SH, and the byte after SW's four. -/
theorem witness_StoresChangeOnlyTheirBytes :
    Memory.wf w0.mem ∧
    (∃ t, exec (.sb 2 1 0) w0 = .next t ∧ (0x2001 : Word) ≠ effectiveAddress w0 1 0) ∧
    (∃ t, exec (.sh 2 1 3) w0 = .next t ∧ containingWord 0x2004 ≠ containingWord (effectiveAddress w0 1 3)) ∧
    ∃ t, exec (.sw 2 1 1) w0 = .next t ∧ (0x2005 : Word) ≠ effectiveAddress w0 1 1 ∧
      (0x2005 : Word) ≠ effectiveAddress w0 1 1 + 1 ∧ (0x2005 : Word) ≠ effectiveAddress w0 1 1 + 2 ∧
      (0x2005 : Word) ≠ effectiveAddress w0 1 1 + 3 :=
  ⟨w0_wf, ⟨_, rfl, by decide⟩, ⟨_, rfl, by decide⟩, _, rfl, by decide⟩
theorem witness_EventsArePrecise :
    (nextOf (singleStep w0)).map (fun t => t.event) = some .ecall ∧
    (nextOf (singleStep wRO)).map (fun t => t.event) = some (.pageFaultPerms 0x2000 0x1000) := by decide
theorem witness_MemoryFaultPayload :
    (nextOf (singleStep wRO)).map (fun t => t.event) = some (.pageFaultPerms 0x2000 0x1000) ∧
    (nextOf (singleStep (wRO.writeReg 1 0x3002))).map (fun t => t.event) = some (.pageFaultMiss 0x3002 0x1000) := by
  decide
theorem witness_FetchReadsThePcOrFaults :
    translate w0.pages (vpnOf (w0.startRun 0x5000).pc) = none ∧
    translate wRO.pages (vpnOf (wRO.startRun 0x2FFC).pc) = some .readOnly ∧
    (wRO.startRun 0x2FFC).pc.toNat % 4096 ≤ 0xFFC := by decide
theorem witness_UnmatchedWordRaisesIllegalInstruction :
    fetch (w0.startRun 0x2000) = .done 0x81FE7F80 ∧ ∀ r ∈ table, (0x81FE7F80 : Word) &&& r.mask ≠ r.value := by decide
theorem witness_StepRunsTheDecodedInstruction :
    w0.running = true ∧ translate w0.pages (vpnOf w0.pc) = some .readWrite ∧ w0.pc.toNat % 4096 ≤ 0xFFC ∧
    decodeBytes [w0.mem.read w0.pc.toNat, w0.mem.read (w0.pc.toNat + 1), w0.mem.read (w0.pc.toNat + 2),
      w0.mem.read (w0.pc.toNat + 3)] = .ok (.ecall, []) := by decide
/-- Both answers occur: `w0` answers a next state, and a load past the page end is the refusal. -/
theorem witness_RunningStepAnswersOrIsPastPageEnd :
    w0.running = true ∧ (nextOf (step w0)).isSome = true ∧ (wRO.writeReg 1 0x2FFD).running = true ∧
    refusalOf (step (wRO.writeReg 1 0x2FFD)) = some .wordPastPageEnd := by decide
theorem witness_runs_ecall : Runs w0 .ecall := ⟨0x00000073, by decide, by decide⟩
theorem witness_AlignedStepIsNeverRefused :
    wRO.running = true ∧ wRO.pc.toNat % 4 = 0 ∧
    ∀ i a, Runs wRO i → wordAccess i wRO = some a → a.toNat % 4 = 0 := by
  refine ⟨rfl, by decide, ?_⟩
  rintro i a ⟨w, hf, hd⟩ ha
  have hw : fetch wRO = .done 0x0020A023 := by decide
  rw [hw] at hf
  injection hf with hf
  subst hf
  have hi : decodeWord 0x0020A023 = .ok (.sw 2 1 0) := by decide
  rw [hi] at hd
  injection hd with hd
  subst hd
  have hx : wordAccess (.sw 2 1 0) wRO = some 0x2000 := by decide
  rw [hx] at ha
  injection ha with ha
  subst ha
  decide
theorem witness_RunningStepKeepsTranslation : w0.running = true ∧ ∃ t, step w0 = .next t := ⟨rfl, _, rfl⟩
theorem witness_RunningStepKeepsReadOnlyBytes :
    wRO.running = true ∧ (∃ t, step wRO = .next t) ∧ translate wRO.pages (vpnOf 0x2000) = some .readOnly :=
  ⟨rfl, ⟨_, rfl⟩, by decide⟩
/-- The store of `sw x2, 0(x1)` changes the byte at 0x2000. -/
theorem witness_OnlyCompletedStoresChangeBytes :
    (demo .readWrite 0x0020A023 0x2000 0xDEADBEEF).running = true ∧
    (nextOf (step (demo .readWrite 0x0020A023 0x2000 0xDEADBEEF))).map (fun t => t.byteAt 0x2000) = some (some 0xEF) ∧
    (demo .readWrite 0x0020A023 0x2000 0xDEADBEEF).byteAt 0x2000 = some 0x80 := by decide
theorem w0_inv : w0.Inv := ⟨by decide, w0_wf, by decide, by decide, by decide, fun _ => rfl⟩
/-- A running state, and an idle one whose host has a move to make. -/
theorem witness_StepKeepsTheInvariant :
    (w0.Inv ∧ ∃ t, step w0 = .next t) ∧
    State.Inv { State.reset with host := [.insertPage 1 .readWrite [1]] } ∧
    ∃ t, step { State.reset with host := [.insertPage 1 .readWrite [1]] } = .next t :=
  ⟨⟨w0_inv, _, rfl⟩, ⟨by decide, by decide, by decide, by decide, by decide, fun _ => rfl⟩, _, rfl⟩
theorem witness_RunningStepKeepsPcEven :
    w0.running = true ∧ w0.pc.getLsbD 0 = false ∧ (nextOf (step w0)).isSome = true := by decide
theorem witness_RunningStepIgnoresThePastEvent :
    w0.running = true ∧ State.running { w0 with event := .clock } = true := by decide
/-- The clock fires in each of its two comparisons, and does not, each at its boundary. -/
theorem witness_RunLoopTurn :
    (∃ t, singleStep { w0 with counter := 500 } = .next t) ∧ w0.config = ⟨500, .exceeds, false⟩ ∧
    500 < 500 + 1 ∧ ¬500 < 499 + 1 ∧
    (∃ t, singleStep { w0 with counter := 499, config := ⟨500, .reaches, true⟩ } = .next t) ∧
    500 ≤ 499 + 1 ∧ ¬500 ≤ 498 + 1 :=
  ⟨⟨_, rfl⟩, rfl, by decide, by decide, ⟨_, rfl⟩, by decide, by decide⟩
/-- A step that is counted and one that fires. -/
theorem witness_ClockCountsEveryStep :
    (nextOf (step w0)).map (fun t => (t.counter, t.event)) = some (1, .ecall) ∧
    (nextOf (step { w0 with counter := 500 })).map (fun t => (t.counter, t.event)) = some (0, .clock) := by decide
/-- An ECALL step and a faulting step, with the counter where the clock fires and where it does not. -/
theorem witness_PreemptionIsDeterministic :
    (∀ n, State.running { w0 with counter := n } = true ∧ State.running { wRO with counter := n } = true ∧
      State.config { wRO with counter := n } = State.config { w0 with counter := n }) ∧
    ((nextOf (step { w0 with counter := 500 })).map (fun t => t.event) = some .clock ∧
      (nextOf (step { wRO with counter := 500 })).map (fun t => t.event) = some .clock) ∧
    ((nextOf (step { w0 with counter := 499 })).map (fun t => t.event) = some .ecall ∧
      (nextOf (step { wRO with counter := 499 })).map (fun t => t.event) = some (.pageFaultPerms 0x2000 0x1000)) :=
  ⟨fun _ => ⟨rfl, rfl, rfl⟩, by decide, by decide⟩
theorem witness_RunIsRepeatedSteps : w0.host = [] := by decide
/-- The firing step of each comparison: counter 500 for `>`, counter 499 for `>=`, PERIOD 500. -/
theorem witness_ClockSwallowsAnEcall :
    (State.running { w0 with counter := 500 } = true ∧ Runs { w0 with counter := 500 } .ecall ∧
      Config.fires w0.config (500 + 1) = true) ∧
    State.running { w0 with counter := 499, config := ⟨500, .reaches, false⟩ } = true ∧
    Runs { w0 with counter := 499, config := ⟨500, .reaches, false⟩ } .ecall ∧
    Config.fires ⟨500, .reaches, false⟩ (499 + 1) = true :=
  ⟨⟨rfl, ⟨0x00000073, by decide, by decide⟩, by decide⟩, rfl, ⟨0x00000073, by decide, by decide⟩, by decide⟩
theorem witness_EventRecursWhenResumed :
    ∃ t, singleStep wRO = .next t ∧ t.event ≠ .none ∧ t.event ≠ .ecall := ⟨_, rfl, by decide, by decide⟩
/-- No run in progress; a mapped and an absent page, and register numbers at the boundary. -/
theorem witness_HostMovesBetweenRuns :
    State.running { w0 with running := false } = false ∧ 31 ≤ 31 ∧ 32 ≤ 32 ∧
    translate w0.pages 2 ≠ none ∧ translate w0.pages 3 = none ∧
    translate w0.pages (vpnOf 0x2FFF) ≠ none ∧ translate w0.pages (vpnOf 0x3000) = none ∧
    (nextOf (step { w0 with running := false, host := [.insertPage 3 .readOnly [9]] })).map
      (fun t => (t.byteAt 0x3000, t.byteAt 0x3001, t.host)) = some (some 9, some 0, []) := by decide
/-- The first byte after the given ones, the last byte of the page, and a byte of another page. -/
theorem witness_InsertedPageHoldsItsBytes :
    Memory.wf w0.mem ∧ (w0.insertPage 2 .readOnly [7]).byteAt 0x2000 = some 7 ∧
    (w0.insertPage 2 .readOnly [7]).byteAt 0x2001 = some 0 ∧ (w0.insertPage 2 .readOnly [7]).byteAt 0x2FFF = some 0 ∧
    (w0.insertPage 2 .readOnly [7]).byteAt 0x1000 = some 0x73 := by decide
theorem witness_IdleEngineKeepsItsState : State.reset.running = false ∧ State.reset.host = [] := by decide
theorem witness_HostIsNotSeenDuringARun : w0.running = true := by decide
theorem witness_DecodeOfEncode :
    (Instr.jal 1 (-1048576)).wellFormed = true ∧ (Instr.bgeu 31 30 4094).wellFormed = true ∧
    (Instr.srai 31 31 31).wellFormed = true := by decide
theorem witness_EncodeOfDecode : decodeWord 0xFE20AE23 = .ok (.sw 2 1 (-4)) := by decide
theorem witness_DecodeFollowsTheTable :
    (rowAdd ∈ table ∧ (0x002081B3 : Word) &&& rowAdd.mask = rowAdd.value) ∧
    ∀ r ∈ table, (0x0FF0000F : Word) &&& r.mask ≠ r.value :=
  ⟨⟨by simp [table, aluRegRows], by decide⟩, by decide⟩
/-- One word for each listed space. -/
theorem witness_ListedEncodingsAreIllegal :
    bits 0x00010001 0 2 ≠ 0b11 ∧ opcodeOf 0x0FF0000F = 0b0001111 ∧
    (opcodeOf 0x30200073 = 0b1110011 ∧ (0x30200073 : Word) ≠ 0x00000073 ∧ (0x30200073 : Word) ≠ 0x00100073) ∧
    (opcodeOf 0x0000B283 = 0b0000011 ∧ funct3Of 0x0000B283 = 3) ∧
    (opcodeOf 0x0000E283 = 0b0000011 ∧ funct3Of 0x0000E283 = 6) ∧
    (opcodeOf 0x0000F283 = 0b0000011 ∧ funct3Of 0x0000F283 = 7) ∧
    (opcodeOf 0x0020B023 = 0b0100011 ∧ 3 ≤ (funct3Of 0x0020B023).toNat) ∧
    (opcodeOf 0x0020A463 = 0b1100011 ∧ funct3Of 0x0020A463 = 2) ∧
    (opcodeOf 0x0020B463 = 0b1100011 ∧ funct3Of 0x0020B463 = 3) ∧
    (opcodeOf 0x00009067 = 0b1100111 ∧ funct3Of 0x00009067 ≠ 0) ∧
    (opcodeOf 0x02409293 = 0b0010011 ∧ funct3Of 0x02409293 = 1 ∧ funct7Of 0x02409293 ≠ 0) ∧
    (opcodeOf 0x4240D293 = 0b0010011 ∧ funct3Of 0x4240D293 = 5 ∧ funct7Of 0x4240D293 ≠ 0 ∧
      funct7Of 0x4240D293 ≠ 0b0100000) ∧
    (opcodeOf 0x4020C1B3 = 0b0110011 ∧ funct7Of 0x4020C1B3 ≠ 0 ∧
      ¬(funct7Of 0x4020C1B3 = 0b0100000 ∧ (funct3Of 0x4020C1B3 = 0 ∨ funct3Of 0x4020C1B3 = 5))) ∧
    opcodeOf 0x0000000B ∉ ([0b0110111, 0b0010111, 0b1101111, 0b1100111, 0b1100011, 0b0000011, 0b0100011, 0b0010011,
      0b0110011, 0b1110011] : List (BitVec 7)) := by decide

end Sys2Proof.Tests
end

section
/-! The register file (10_state.md R22 to R24). -/

namespace Sys2Proof.Machine

/-- R23's frame: a register write can change no field but the registers. -/
theorem State.writeReg_eq_with_regs (s : State) (r : Reg) (v : Word) :
    s.writeReg r v = { s with regs := (s.writeReg r v).regs } := by
  by_cases hr : r = 0
  · rw [hr, State.writeReg_zero]
  · rw [State.writeReg, if_neg hr]

/-- The host's register numbers that have a meaning, in the spec's spelling (R22: "regno∈[1,31]"). -/
theorem State.readRegNo_eq (s : State) (n : Nat) :
    s.readRegNo n = if n ≤ 31 then some (s.readReg (BitVec.ofNat 5 n)) else none :=
  if_congr Nat.lt_succ_iff rfl rfl

theorem State.writeRegNo_eq (s : State) (n : Nat) (v : Word) :
    s.writeRegNo n v = if n ≤ 31 then some (s.writeReg (BitVec.ofNat 5 n) v) else none :=
  if_congr Nat.lt_succ_iff rfl rfl

/-- Settles O1: the rules for x0, for reading a register after a write to the same and to another one, the write's
frame, and the host's two accessors by number. -/
theorem registerFileReadsAndWrites : Obligations.RegisterFileReadsAndWrites := fun s r q v n =>
  ⟨s.readReg_zero, s.writeReg_zero v, s.readReg_writeReg_same r v, s.readReg_writeReg_other q r v,
    ⟨_, s.writeReg_eq_with_regs r v⟩, s.readRegNo_eq n, s.writeRegNo_eq n v⟩

end Sys2Proof.Machine
end

section
/-! The fetch (40_step.md R131). -/

namespace Sys2Proof.Machine

/-- The fetch from a mapped page, whatever its tag, is the Word at `pc`, which need not be aligned (R131). -/
theorem fetch_of_mapped {s : State} {p : Perm} (h : translate s.pages (vpnOf s.pc) = some p)
    (he : s.pc.toNat % 4096 ≤ 0xFFC) : fetch s = .done (s.mem.readWord s.pc.toNat) :=
  memRead_done h (pastPageEnd_eq_false.2 he)

/-- A failed fetch ends the step, with `pc` both the address that missed and the address of the instruction (R131). -/
theorem singleStep_of_absent {s : State} (h : translate s.pages (vpnOf s.pc) = none) :
    singleStep s = .next (s.raise (.pageFaultMiss s.pc s.pc)) := by
  rw [singleStep, fetch, memRead_miss h, afterMmu_fault, MmuFault.event]

/-- Settles O30: the step's event where the fetch misses, and the four byte lanes of the fetched Word where the page of
`pc` is mapped. -/
theorem fetchReadsThePcOrFaults : Obligations.FetchReadsThePcOrFaults := fun s =>
  ⟨singleStep_of_absent, fun _ hp he =>
    ⟨s.mem.readWord s.pc.toNat, fetch_of_mapped hp he, byteOf_wordOfBytes _ _ _ _⟩⟩

end Sys2Proof.Machine
end

section
/-! The ALU class (41_alu.md R140, R141, R153 to R162). -/

namespace Sys2Proof.Machine

/-! ### The operations (R141) -/

/-- SUB's row: the wrapped difference is the integer difference modulo 2^32. -/
theorem toNat_alu_sub (a b : Word) : ((alu .sub a b).toNat : Int) = ((a.toNat : Int) - (b.toNat : Int)) % 2 ^ 32 := by
  have hsub : (alu .sub a b).toNat = (2 ^ 32 - b.toNat + a.toNat) % 2 ^ 32 := BitVec.toNat_sub a b
  rw [hsub]
  omega

theorem alu_slt (a b : Word) : alu .slt a b = if a.toInt < b.toInt then 1 else 0 := boolWord_lessSigned a b
theorem alu_sltu (a b : Word) : alu .sltu a b = if a.toNat < b.toNat then 1 else 0 := boolWord_lessUnsigned a b
theorem alu_sll (a b : Word) : alu .sll a b = a <<< (b.toNat % 32) := by rw [← shiftAmount_eq]; rfl
theorem alu_srl (a b : Word) : alu .srl a b = a >>> (b.toNat % 32) := by rw [← shiftAmount_eq]; rfl
theorem alu_sra (a b : Word) : alu .sra a b = a.sshiftRight (b.toNat % 32) := by rw [← shiftAmount_eq]; rfl

theorem toNat_alu_sll (a b : Word) : (alu .sll a b).toNat = a.toNat * 2 ^ (b.toNat % 32) % 2 ^ 32 := by
  rw [alu_sll, BitVec.toNat_shiftLeft, Nat.shiftLeft_eq]

theorem toNat_alu_srl (a b : Word) : (alu .srl a b).toNat = a.toNat / 2 ^ (b.toNat % 32) := by
  rw [alu_srl, BitVec.toNat_ushiftRight, Nat.shiftRight_eq_div_pow]

/-- SRA's row: the divisor is positive, so Lean's shift of an integer, a Euclidean quotient, is the floor. -/
theorem toInt_alu_sra (a b : Word) : (alu .sra a b).toInt = Int.fdiv a.toInt (2 ^ (b.toNat % 32)) := by
  have hpos : (0 : Int) ≤ 2 ^ (b.toNat % 32) := by positivity
  rw [alu_sra, BitVec.toInt_sshiftRight, Int.shiftRight_eq_div_pow, Int.fdiv_eq_ediv_of_nonneg _ hpos]
  norm_cast

/-- Settles O2: the wrap of ADD and SUB, the bits of AND, OR and XOR, the two comparisons, and the three shifts by
`b mod 32` as a product, a quotient and a floored quotient. -/
theorem aluOperationsCompute : Obligations.AluOperationsCompute := fun a b =>
  ⟨BitVec.toNat_add a b, toNat_alu_sub a b, fun _ => BitVec.getLsbD_and, fun _ => BitVec.getLsbD_or,
    fun _ => BitVec.getLsbD_xor, alu_slt a b, alu_sltu a b, toNat_alu_sll a b,
    toNat_alu_srl a b, toInt_alu_sra a b⟩

/-! ### The instructions (R140, R153 to R162) -/

/-- An instruction with a control-signal record (R101) completes with that record's operation on the operands in
the state before the write (R140). -/
theorem exec_of_aluSignals {i : Instr} {sig : AluSignals} (h : aluSignals i = some sig) (s : State) :
    exec i s = .next { s.writeReg sig.rd (alu sig.operation (sig.operand1.value s) (sig.operand2.value s)) with
      pc := s.pc + 4, event := .none } := by
  have hexec : exec i s = .next (aluHandler sig s) := by cases i <;> cases h <;> rfl
  rw [hexec, aluHandler_eq]

/-- The same for a register-register instruction, whose record names two registers. -/
theorem exec_of_registerSignals (op : AluOp) {i : Instr} {rd rs1 rs2 : Reg}
    (h : aluSignals i = some ⟨op, .rs1 rs1, .rs2 rs2, rd⟩) (s : State) :
    exec i s = .next { s.writeReg rd (alu op (s.readReg rs1) (s.readReg rs2)) with pc := s.pc + 4, event := .none } :=
  exec_of_aluSignals h s

/-- Settles O7: each instruction runs the operation its record names. -/
theorem registerArithmeticResults : Obligations.RegisterArithmeticResults := fun _ _ _ s =>
  ⟨exec_of_registerSignals .add rfl s, exec_of_registerSignals .sub rfl s, exec_of_registerSignals .xor rfl s,
    exec_of_registerSignals .or rfl s, exec_of_registerSignals .and rfl s⟩

/-- Settles O8: each shift runs the operation its record names, by rs2's value modulo 32. -/
theorem registerShiftResults : Obligations.RegisterShiftResults := fun _ _ _ s => by
  rw [← alu_sll, ← alu_srl, ← alu_sra]
  exact ⟨exec_of_registerSignals .sll rfl s, exec_of_registerSignals .srl rfl s, exec_of_registerSignals .sra rfl s⟩

/-- Settles O9: each comparison runs the operation its record names, which gives the Word 1 or 0. -/
theorem registerComparisonResults : Obligations.RegisterComparisonResults := fun _ _ _ s => by
  rw [← alu_slt, ← alu_sltu]
  exact ⟨exec_of_registerSignals .slt rfl s, exec_of_registerSignals .sltu rfl s⟩

end Sys2Proof.Machine
end

section
/-! The branches of the CTRL class (43_ctrl.md R193 to R199). -/

namespace Sys2Proof.Machine

/-! ### The conditions (R193) -/

theorem BranchCond.holds_eq_iff (a b : Word) : BranchCond.eq.holds a b = true ↔ a = b := decide_eq_true_iff
theorem BranchCond.holds_ne_iff (a b : Word) : BranchCond.ne.holds a b = true ↔ a ≠ b := decide_eq_true_iff
theorem BranchCond.holds_lt_iff (a b : Word) : BranchCond.lt.holds a b = true ↔ a.toInt < b.toInt :=
  decide_eq_true_iff
theorem BranchCond.holds_ltu_iff (a b : Word) : BranchCond.ltu.holds a b = true ↔ a.toNat < b.toNat :=
  decide_eq_true_iff

theorem BranchCond.holds_ge_iff (a b : Word) : BranchCond.ge.holds a b = true ↔ b.toInt ≤ a.toInt := by
  have hnot : BranchCond.ge.holds a b = !BranchCond.lt.holds a b := rfl
  rw [hnot, Bool.not_eq_true', ← Bool.not_eq_true, holds_lt_iff, not_lt]

theorem BranchCond.holds_geu_iff (a b : Word) : BranchCond.geu.holds a b = true ↔ b.toNat ≤ a.toNat := by
  have hnot : BranchCond.geu.holds a b = !BranchCond.ltu.holds a b := rfl
  rw [hnot, Bool.not_eq_true', ← Bool.not_eq_true, holds_ltu_iff, not_lt]

/-! ### The instructions (R194 to R199) -/

/-- The branch rule, with its condition as a proposition: only `pc` and the event are written. -/
theorem branch_of_holds_iff {c : BranchCond} {rs1 rs2 : Reg} {s : State} {p : Prop} [Decidable p]
    (h : c.holds (s.readReg rs1) (s.readReg rs2) = true ↔ p) (off : BitVec 13) :
    branch c rs1 rs2 off s =
      .next { s with pc := if p then s.pc + off.signExtend 32 else s.pc + 4, event := .none } := by
  rw [branch, if_congr h rfl rfl]
  split
  · rfl
  · rfl

/-- Settles O23: each branch is the branch rule on its own condition; BNE's clause names the opposite one. -/
theorem branchResults : Obligations.BranchResults := fun _ _ off s =>
  ⟨branch_of_holds_iff (BranchCond.holds_eq_iff _ _) off,
    (branch_of_holds_iff (BranchCond.holds_ne_iff _ _) off).trans (by rw [ite_not]),
    branch_of_holds_iff (BranchCond.holds_lt_iff _ _) off,
    branch_of_holds_iff (BranchCond.holds_ge_iff _ _) off,
    branch_of_holds_iff (BranchCond.holds_ltu_iff _ _) off,
    branch_of_holds_iff (BranchCond.holds_geu_iff _ _) off⟩

end Sys2Proof.Machine
end

section
/-! The decode table and the encoder as inverses of each other (30_encoding.md R92 to R105). -/

namespace Sys2Proof

/-! ### Decoding what was encoded -/

/-- Every instruction's word matches the instruction's row, and for a well-formed one the row reads it back. -/
theorem rowOfEncode (i : Instr) : Laws.RowOfEncode.Statement i := by
  cases i with
  | lui rd imm => exact Laws.RowOfEncode.lui rd imm
  | auipc rd imm => exact Laws.RowOfEncode.auipc rd imm
  | jal rd off => exact Laws.RowOfEncode.jal rd off
  | jalr rd rs1 imm => exact Laws.RowOfEncode.jalr rd rs1 imm
  | beq rs1 rs2 off => exact Laws.RowOfEncode.beq rs1 rs2 off
  | bne rs1 rs2 off => exact Laws.RowOfEncode.bne rs1 rs2 off
  | blt rs1 rs2 off => exact Laws.RowOfEncode.blt rs1 rs2 off
  | bge rs1 rs2 off => exact Laws.RowOfEncode.bge rs1 rs2 off
  | bltu rs1 rs2 off => exact Laws.RowOfEncode.bltu rs1 rs2 off
  | bgeu rs1 rs2 off => exact Laws.RowOfEncode.bgeu rs1 rs2 off
  | lb rd rs1 imm => exact Laws.RowOfEncode.lb rd rs1 imm
  | lh rd rs1 imm => exact Laws.RowOfEncode.lh rd rs1 imm
  | lw rd rs1 imm => exact Laws.RowOfEncode.lw rd rs1 imm
  | lbu rd rs1 imm => exact Laws.RowOfEncode.lbu rd rs1 imm
  | lhu rd rs1 imm => exact Laws.RowOfEncode.lhu rd rs1 imm
  | sb rs2 rs1 imm => exact Laws.RowOfEncode.sb rs2 rs1 imm
  | sh rs2 rs1 imm => exact Laws.RowOfEncode.sh rs2 rs1 imm
  | sw rs2 rs1 imm => exact Laws.RowOfEncode.sw rs2 rs1 imm
  | addi rd rs1 imm => exact Laws.RowOfEncode.addi rd rs1 imm
  | slti rd rs1 imm => exact Laws.RowOfEncode.slti rd rs1 imm
  | sltiu rd rs1 imm => exact Laws.RowOfEncode.sltiu rd rs1 imm
  | xori rd rs1 imm => exact Laws.RowOfEncode.xori rd rs1 imm
  | ori rd rs1 imm => exact Laws.RowOfEncode.ori rd rs1 imm
  | andi rd rs1 imm => exact Laws.RowOfEncode.andi rd rs1 imm
  | slli rd rs1 shamt => exact Laws.RowOfEncode.slli rd rs1 shamt
  | srli rd rs1 shamt => exact Laws.RowOfEncode.srli rd rs1 shamt
  | srai rd rs1 shamt => exact Laws.RowOfEncode.srai rd rs1 shamt
  | add rd rs1 rs2 => exact Laws.RowOfEncode.add rd rs1 rs2
  | sub rd rs1 rs2 => exact Laws.RowOfEncode.sub rd rs1 rs2
  | sll rd rs1 rs2 => exact Laws.RowOfEncode.sll rd rs1 rs2
  | slt rd rs1 rs2 => exact Laws.RowOfEncode.slt rd rs1 rs2
  | sltu rd rs1 rs2 => exact Laws.RowOfEncode.sltu rd rs1 rs2
  | xor rd rs1 rs2 => exact Laws.RowOfEncode.xor rd rs1 rs2
  | srl rd rs1 rs2 => exact Laws.RowOfEncode.srl rd rs1 rs2
  | sra rd rs1 rs2 => exact Laws.RowOfEncode.sra rd rs1 rs2
  | or rd rs1 rs2 => exact Laws.RowOfEncode.or rd rs1 rs2
  | and rd rs1 rs2 => exact Laws.RowOfEncode.and rd rs1 rs2
  | ecall => exact Laws.RowOfEncode.ecall
  | ebreak => exact Laws.RowOfEncode.ebreak

/-- Settles O56: the word of an instruction matches its row alone, and the row reads its operands back. -/
theorem decodeOfEncode : Obligations.DecodeOfEncode := by
  intro i hwf
  obtain ⟨hmatch, hread⟩ := rowOfEncode i
  rw [decodeWord_of_row (row_mem i) hmatch, hread hwf]

/-! ### Encoding what was decoded -/

/-- The row loses no bit: a word that matches it is the encoding of the well-formed instruction it is read as. -/
def Row.EncodesBack (r : Row) : Prop :=
  ∀ w : Word, w &&& r.mask = r.value → (r.read w).wellFormed = true ∧ encode (r.read w) = w

theorem aluImmRows_encodesBack : ∀ r ∈ aluImmRows, Row.EncodesBack r := by
  intro r hr w h
  fin_cases hr
  iterate 2 exact ⟨rfl, uFormat_of_masked h rfl⟩
  iterate 6 exact ⟨rfl, iFormat_of_masked h rfl rfl⟩
  iterate 3 exact ⟨rfl, rFormat_of_masked h rfl rfl rfl⟩

theorem aluRegRows_encodesBack : ∀ r ∈ aluRegRows, Row.EncodesBack r := by
  intro r hr w h
  fin_cases hr
  iterate 10 exact ⟨rfl, rFormat_of_masked h rfl rfl rfl⟩

theorem memRows_encodesBack : ∀ r ∈ memRows, Row.EncodesBack r := by
  intro r hr w h
  fin_cases hr
  iterate 5 exact ⟨rfl, iFormat_of_masked h rfl rfl⟩
  iterate 3 exact ⟨rfl, sFormat_of_masked h rfl rfl⟩

/-- A row whose mask is the whole word matches one word. -/
theorem eq_of_fullMask {w v : Word} (h : w &&& 0xFFFFFFFF = v) : v = w := h.symm.trans BitVec.and_allOnes

theorem ctrlRows_encodesBack : ∀ r ∈ ctrlRows, Row.EncodesBack r := by
  intro r hr w h
  fin_cases hr
  · exact ⟨evenOffset_immJ w, jFormat_of_masked h rfl⟩
  · exact ⟨rfl, iFormat_of_masked h rfl rfl⟩
  iterate 6 exact ⟨evenOffset_immB w, bFormat_of_masked h rfl rfl⟩
  iterate 2 exact ⟨rfl, eq_of_fullMask h⟩

theorem table_encodesBack {r : Row} (hr : r ∈ table) : Row.EncodesBack r := by
  simp only [table, List.mem_append] at hr
  obtain ((hr | hr) | hr) | hr := hr
  · exact aluImmRows_encodesBack r hr
  · exact aluRegRows_encodesBack r hr
  · exact memRows_encodesBack r hr
  · exact ctrlRows_encodesBack r hr

/-- Settles O57: the word matches a row (R99), and no row loses a bit (R105). -/
theorem encodeOfDecode : Obligations.EncodeOfDecode := by
  intro w i h
  obtain ⟨r, hr, hmatch, rfl⟩ := decodeWord_inv h
  exact table_encodesBack hr w hmatch

/-! ### The table (R99, R100) -/

/-- No two rows of the table match one word. -/
theorem row_unique {w : Word} {r q : Row} (hr : r ∈ table) (hq : q ∈ table) (hwr : w &&& r.mask = r.value)
    (hwq : w &&& q.mask = q.value) : r = q := by
  have hfind : ∀ {p : Row}, p ∈ table → w &&& p.mask = p.value → table.find? (fun x => x.matches w) = some p :=
    fun hp hw => find?_of_pairwise hp ((matches_iff _ w).2 hw) (table_matches_once w)
  exact Option.some.inj ((hfind hr hwr).symm.trans (hfind hq hwq))

/-- Settles O58: the rows are disjoint, so the first that matches is the only one. -/
theorem decodeFollowsTheTable : Obligations.DecodeFollowsTheTable :=
  ⟨fun _ _ _ hr hq hwr hwq => congrArg Row.mnemonic (row_unique hr hq hwr hwq),
    fun _ _ hr hw => decodeWord_of_row hr hw, fun _ h => decodeWord_illegal h⟩

/-- Settles O60, by evaluating the decoder on each word. -/
theorem sampleWordsDecode : Obligations.SampleWordsDecode := by
  unfold Obligations.SampleWordsDecode
  decide

/-! ### The illegal spaces (R103) -/

/-- A row's mask covers the `n` bits from `lo`, so a word that matches has the row's own value there. -/
abbrev Row.Fixes (r : Row) (lo n : Nat) : Prop := ∀ i, i < n → r.mask.getLsbD (lo + i) = true

theorem Row.Fixes.bits_eq {r : Row} {lo n : Nat} (h : r.Fixes lo n) {w : Word} (hw : w &&& r.mask = r.value) :
    bits w lo n = bits r.value lo n := bits_of_masked hw lo n h

theorem table_fixes_opcode : ∀ r ∈ table, r.Fixes 0 7 := by decide

/-- A word whose opcode no row has is illegal. -/
theorem illegal_of_opcode {w : Word} (h : ∀ r ∈ table, opcodeOf w ≠ bits r.value 0 7) :
    decodeWord w = .error .illegal :=
  decodeWord_illegal fun r hr hw => h r hr ((table_fixes_opcode r hr).bits_eq hw)

/-- A word is illegal by its funct3 where every row of its opcode fixes funct3 and has another. -/
theorem illegal_of_funct3 {w : Word} {op : BitVec 7} {bad : BitVec 3 → Prop} (hop : opcodeOf w = op)
    (hbad : bad (funct3Of w))
    (hrows : ∀ r ∈ table, bits r.value 0 7 = op → r.Fixes 12 3 ∧ ¬bad (bits r.value 12 3)) :
    decodeWord w = .error .illegal := by
  refine decodeWord_illegal fun r hr hw => ?_
  obtain ⟨hfix, hgood⟩ := hrows r hr (((table_fixes_opcode r hr).bits_eq hw).symm.trans hop)
  have hf3 : funct3Of w = bits r.value 12 3 := hfix.bits_eq hw
  exact hgood (hf3 ▸ hbad)

/-- A word is illegal by its funct7 where every row of its opcode that may share its funct3 fixes funct7 and has
another. -/
theorem illegal_of_funct7 {w : Word} {op : BitVec 7} {here : BitVec 3 → Prop} {bad : BitVec 3 → BitVec 7 → Prop}
    (hop : opcodeOf w = op) (hhere : here (funct3Of w)) (hbad : bad (funct3Of w) (funct7Of w))
    (hrows : ∀ r ∈ table, bits r.value 0 7 = op → r.Fixes 12 3 ∧
      (here (bits r.value 12 3) → r.Fixes 25 7 ∧ ¬bad (bits r.value 12 3) (bits r.value 25 7))) :
    decodeWord w = .error .illegal := by
  refine decodeWord_illegal fun r hr hw => ?_
  obtain ⟨hfix3, hrow⟩ := hrows r hr (((table_fixes_opcode r hr).bits_eq hw).symm.trans hop)
  have hf3 : funct3Of w = bits r.value 12 3 := hfix3.bits_eq hw
  obtain ⟨hfix7, hgood⟩ := hrow (hf3 ▸ hhere)
  have hf7 : funct7Of w = bits r.value 25 7 := hfix7.bits_eq hw
  exact hgood (hf3 ▸ hf7 ▸ hbad)

/-- The rows with opcode SYSTEM fix every bit. -/
theorem system_rows : ∀ r ∈ table, bits r.value 0 7 = 0b1110011 →
    r.mask = 0xFFFFFFFF ∧ (r.value = 0x00000073 ∨ r.value = 0x00100073) := by decide

theorem illegal_of_system {w : Word} (hop : opcodeOf w = 0b1110011) (hecall : w ≠ 0x00000073)
    (hebreak : w ≠ 0x00100073) : decodeWord w = .error .illegal := by
  refine decodeWord_illegal fun r hr hw => ?_
  obtain ⟨hmask, hvalue⟩ := system_rows r hr (((table_fixes_opcode r hr).bits_eq hw).symm.trans hop)
  rw [hmask] at hw
  rcases hvalue with hv | hv
  · exact hecall ((eq_of_fullMask hw).symm.trans hv)
  · exact hebreak ((eq_of_fullMask hw).symm.trans hv)

/-- Every row's word is a 32-bit encoding: its two low bits are set (R91). -/
theorem table_low_bits : ∀ r ∈ table, r.Fixes 0 2 ∧ bits r.value 0 2 = 0b11 := by decide

theorem illegal_of_low_bits {w : Word} (h : bits w 0 2 ≠ 0b11) : decodeWord w = .error .illegal := by
  refine decodeWord_illegal fun r hr hw => ?_
  obtain ⟨hfix, hlow⟩ := table_low_bits r hr
  exact h ((hfix.bits_eq hw).trans hlow)

/-- The opcodes of the table (R100). -/
theorem table_opcodes : ∀ r ∈ table, bits r.value 0 7 ∈ ([0b0110111, 0b0010111, 0b1101111, 0b1100111, 0b1100011,
    0b0000011, 0b0100011, 0b0010011, 0b0110011, 0b1110011] : List (BitVec 7)) := by decide

/-- Settles O59: each space is outside the table by its low bits, its opcode, its funct3 or its funct7. -/
theorem listedEncodingsAreIllegal : Obligations.ListedEncodingsAreIllegal := by
  refine fun w => ⟨?_, illegal_of_low_bits, fun hop => ?_, illegal_of_system, fun hop hf => ?_, fun hop hf => ?_,
    fun hop hf => ?_, fun hop hf => ?_, fun hop hf3 hf7 => ?_, fun hop hf3 hf7 hf7' => ?_, fun hop hf7 hf => ?_,
    fun hop => ?_⟩
  · rintro (rfl | rfl)
    · exact illegal_of_low_bits (by decide)
    · exact illegal_of_opcode (by decide)
  · exact illegal_of_opcode (hop ▸ by decide)
  · exact illegal_of_funct3 (bad := fun f => f = 3 ∨ f = 6 ∨ f = 7) hop hf (by decide)
  · exact illegal_of_funct3 (bad := fun f => 3 ≤ f.toNat) hop hf (by decide)
  · exact illegal_of_funct3 (bad := fun f => f = 2 ∨ f = 3) hop hf (by decide)
  · exact illegal_of_funct3 (bad := fun f => f ≠ 0) hop hf (by decide)
  · exact illegal_of_funct7 (here := fun f => f = 1) (bad := fun _ f => f ≠ 0) hop hf3 hf7 (by decide)
  · exact illegal_of_funct7 (here := fun f => f = 5) (bad := fun _ f => f ≠ 0 ∧ f ≠ 0b0100000) hop hf3 ⟨hf7, hf7'⟩
      (by decide)
  · exact illegal_of_funct7 (here := fun _ => True)
      (bad := fun f3 f7 => f7 ≠ 0 ∧ ¬(f7 = 0b0100000 ∧ (f3 = 0 ∨ f3 = 5))) hop trivial ⟨hf7, hf⟩ (by decide)
  · exact illegal_of_opcode fun r hr heq => hop (heq ▸ table_opcodes r hr)

end Sys2Proof
end

section
/-! The invariant of every step (10_state.md R30, 20_memory.md R53, R54, 60_exceptions.md R223). -/

namespace Sys2Proof.Machine

/-! ### The part of the invariant about pages and bytes -/

/-- The three clauses of `State.Inv` about the page table and the memory. -/
structure PagesInv (pages : PageTable) (m : Memory) : Prop where
  pagesCanonical : PageTable.wf pages
  memCanonical : Memory.wf m
  bytesMapped : ∀ c ∈ m, (translate pages (BitVec.ofNat 20 (c.1 / 4096))).isSome = true

theorem State.Inv.pagesInv {s : State} (h : s.Inv) : PagesInv s.pages s.mem :=
  ⟨h.pagesCanonical, h.memCanonical, h.bytesMapped⟩

/-- The page number of an address in a page. -/
theorem vpn_of_div {x : Nat} {v : Vpn} (h : x / 4096 = v.toNat) : BitVec.ofNat 20 (x / 4096) = v := by
  rw [h, BitVec.ofNat_toNat, BitVec.setWidth_eq]

/-- Bytes written inside a mapped page. -/
theorem PagesInv.writeBytes {pages : PageTable} {m : Memory} {v : Vpn} {a : Nat} {bs : List Byte}
    (h : PagesInv pages m) (hv : (translate pages v).isSome = true)
    (hpage : ∀ x, a ≤ x → x < a + bs.length → x / 4096 = v.toNat) (hbound : a + bs.length ≤ 2 ^ 32) :
    PagesInv pages (m.writeBytes a bs) := by
  refine ⟨h.pagesCanonical, Memory.writeBytes_wf bs m a hbound h.memCanonical, fun c hc => ?_⟩
  rcases Memory.mem_writeBytes hc with hold | ⟨hlo, hhi⟩
  · exact h.bytesMapped c hold
  · rw [vpn_of_div (hpage c.1 hlo hhi)]
    exact hv

theorem PagesInv.writeWord {pages : PageTable} {m : Memory} {a w : Word} (h : PagesInv pages m)
    (hv : (translate pages (vpnOf a)).isSome = true) (he : pastPageEnd a = false) :
    PagesInv pages (m.writeWord a.toNat w) := by
  have hoff := pastPageEnd_eq_false.1 he
  refine h.writeBytes hv (fun x hlo hhi => ?_) (toNat_add_four_le he)
  rw [vpnOf_toNat]
  simp only [bytesOfWord, List.length_cons, List.length_nil] at hhi
  omega

theorem PagesInv.write {pages : PageTable} {m : Memory} {a : Word} (b : Byte) (h : PagesInv pages m)
    (hv : (translate pages (vpnOf a)).isSome = true) : PagesInv pages (m.write a.toNat b) := by
  have hbyte : m.write a.toNat b = m.writeBytes a.toNat [b] := rfl
  rw [hbyte]
  refine h.writeBytes hv (fun x hlo hhi => ?_) a.isLt
  have hx : x = a.toNat := Nat.le_antisymm (Nat.le_of_lt_succ hhi) hlo
  rw [hx, vpnOf_toNat]

/-- A page inserted or its tag changed: no page that was mapped is lost. -/
theorem PagesInv.insert {pages : PageTable} {m : Memory} (h : PagesInv pages m) (v : Vpn) (p : Perm) :
    PagesInv (PageTable.insert pages v p) m := by
  refine ⟨PageTable.insert_wf pages v p h.pagesCanonical, h.memCanonical, fun c hc => ?_⟩
  by_cases hv : BitVec.ofNat 20 (c.1 / 4096) = v
  · rw [hv, translate_insert_same]
    rfl
  · rw [translate_insert_other _ _ _ _ hv]
    exact h.bytesMapped c hc

theorem PagesInv.clearPage {pages : PageTable} {m : Memory} (h : PagesInv pages m) (v : Vpn) :
    PagesInv pages (m.clearPage v) :=
  ⟨h.pagesCanonical, Memory.clearPage_wf m v h.memCanonical,
    fun c hc => h.bytesMapped c (Memory.mem_clearPage hc).1⟩

/-- A page removed with its bytes. -/
theorem PagesInv.remove {pages : PageTable} {m : Memory} (h : PagesInv pages m) (v : Vpn) :
    PagesInv (PageTable.remove pages v) (m.clearPage v) := by
  refine ⟨PageTable.remove_wf pages v h.pagesCanonical, (h.clearPage v).memCanonical, fun c hc => ?_⟩
  obtain ⟨hold, hne⟩ := Memory.mem_clearPage hc
  have hbound := (h.memCanonical.2 c hold).1
  have hother : BitVec.ofNat 20 (c.1 / 4096) ≠ v := by
    rintro rfl
    rw [BitVec.toNat_ofNat] at hne
    omega
  rw [translate_remove_other _ _ _ hother]
  exact h.bytesMapped c hold

/-- A page inserted with its bytes, none of which lies past its end. -/
theorem PagesInv.insertPage {s : State} (h : PagesInv s.pages s.mem) (v : Vpn) (p : Perm) (bs : List Byte) :
    PagesInv (s.insertPage v p bs).pages (s.insertPage v p bs).mem := by
  have hlen : (bs.take 4096).length ≤ 4096 := List.length_take_le _ _
  have hv := v.isLt
  refine ((h.insert v p).clearPage v).writeBytes (v := v) (by rw [translate_insert_same]; rfl) (fun x hlo hhi => ?_) ?_
  · unfold pageBase at hlo hhi
    omega
  · unfold pageBase
    omega

/-! ### A step of a run -/

theorem singleStep_pagesInv {s t : State} (hs : PagesInv s.pages s.mem) (h : singleStep s = .next t) :
    PagesInv t.pages t.mem := by
  obtain ⟨-, -, -, hpages, -, -⟩ := singleStep_keeps h
  rw [hpages]
  rcases singleStep_mem h with hm | ⟨_, a, w, -, -, hp, he, hm, -, -⟩
  · rwa [hm]
  · rw [hm]
    exact hs.writeWord (by rw [hp]; rfl) he

/-- Below the count at which the clock fires the counter is in range (R225). -/
theorem le_period_of_not_fires {c : Config} {n : Nat} (h : Config.fires c n = false) : n ≤ c.period := by
  by_contra hlt
  have hfires : Config.fires c n = true := by
    rw [fires_iff]
    cases c.clockFire with
    | exceeds => exact .inl ⟨rfl, by omega⟩
    | reaches => exact .inr ⟨rfl, by omega⟩
  rw [hfires] at h
  cases h

theorem runStep_inv {s t : State} (hs : s.Inv) (h : runStep s = .next t) : t.Inv := by
  obtain ⟨u, hu, rfl⟩ := runStep_next h
  obtain ⟨hconfig, hcounter, hcycles, -, -, -⟩ := singleStep_keeps hu
  obtain ⟨hpages, hmem, hbytes⟩ := singleStep_pagesInv hs.pagesInv hu
  have hle := hs.counterLeCycles
  rcases afterStep_cases u with ⟨-, e⟩ | ⟨hquiet, e⟩ <;> rw [e]
  · exact ⟨hpages, hmem, hbytes, Nat.zero_le _, Nat.zero_le _, fun hr => nomatch hr⟩
  · refine ⟨hpages, hmem, hbytes, le_period_of_not_fires hquiet, ?_, fun hr => ?_⟩
    · show u.counter + 1 ≤ u.cycles + 1
      omega
    · exact of_decide_eq_true (Bool.and_eq_true_iff.1 hr).2

/-! ### A move of the host -/

theorem hostStep_of_noMove {s : State} (h : s.host = []) : hostStep s = .next s := by rw [hostStep, h]

theorem hostStep_of_move {s : State} {m : HostMove} {rest : List HostMove} (h : s.host = m :: rest) :
    hostStep s = hostMove m { s with host := rest, event := .none } := by rw [hostStep, h]

theorem hostMove_writeReg {n : Nat} (h : n ≤ 31) (v : Word) (s : State) :
    hostMove (.writeReg n v) s = .next (s.writeReg (BitVec.ofNat 5 n) v) := by
  rw [hostMove, State.writeRegNo_eq, if_pos h]

theorem hostMove_writeReg_refused {n : Nat} (h : 32 ≤ n) (v : Word) (s : State) :
    hostMove (.writeReg n v) s = .refused .registerIndexOutOfRange := by
  rw [hostMove, State.writeRegNo_eq, if_neg (by omega)]

theorem hostMove_setPerm {s : State} {v : Vpn} (h : translate s.pages v ≠ none) (p : Perm) :
    hostMove (.setPerm v p) s = .next { s with pages := PageTable.insert s.pages v p } := by
  obtain ⟨q, hq⟩ := Option.ne_none_iff_exists'.1 h
  rw [hostMove, hq]

theorem hostMove_setPerm_refused {s : State} {v : Vpn} (h : translate s.pages v = none) (p : Perm) :
    hostMove (.setPerm v p) s = .refused .hostNoSuchPage := by
  rw [hostMove, h]

theorem hostMove_writeByte {s : State} {a : Word} (h : translate s.pages (vpnOf a) ≠ none) (b : Byte) :
    hostMove (.writeByte a b) s = .next { s with mem := s.mem.write a.toNat b } := by
  obtain ⟨q, hq⟩ := Option.ne_none_iff_exists'.1 h
  rw [hostMove, hq]

theorem hostMove_writeByte_refused {s : State} {a : Word} (h : translate s.pages (vpnOf a) = none) (b : Byte) :
    hostMove (.writeByte a b) s = .refused .hostNoSuchPage := by
  rw [hostMove, h]

/-- A move that leaves the parameters and the counters alone and the event `None`. -/
theorem State.Inv.of_host {s t : State} (hs : s.Inv) (hconfig : t.config = s.config) (hcounter : t.counter = s.counter)
    (hcycles : t.cycles = s.cycles) (hevent : t.event = .none) (hp : PagesInv t.pages t.mem) : t.Inv := by
  refine ⟨hp.pagesCanonical, hp.memCanonical, hp.bytesMapped, ?_, ?_, fun _ => hevent⟩
  · rw [hcounter, hconfig]
    exact hs.counterInRange
  · rw [hcounter, hcycles]
    exact hs.counterLeCycles

theorem hostMove_inv {m : HostMove} {s t : State} (hs : s.Inv) (he : s.event = .none) (h : hostMove m s = .next t) :
    t.Inv := by
  have hp := hs.pagesInv
  cases m with
  | run entry =>
    cases h
    exact hs.of_host rfl rfl rfl rfl hp
  | writeReg n v =>
    rcases Nat.lt_or_ge n 32 with hn | hn
    · rw [hostMove_writeReg (Nat.le_of_lt_succ hn)] at h
      cases h
      exact hs.of_host (by simp) (by simp) (by simp) (by simpa) (by simpa)
    · rw [hostMove_writeReg_refused hn] at h
      cases h
  | writePc v =>
    cases h
    exact hs.of_host rfl rfl rfl he hp
  | insertPage v p bs =>
    cases h
    exact hs.of_host rfl rfl rfl he (hp.insertPage v p bs)
  | removePage v =>
    cases h
    exact hs.of_host rfl rfl rfl he (hp.remove v)
  | setPerm v p =>
    by_cases hv : translate s.pages v = none
    · rw [hostMove_setPerm_refused hv] at h
      cases h
    · rw [hostMove_setPerm hv] at h
      cases h
      exact hs.of_host rfl rfl rfl he (hp.insert v p)
  | writeByte a b =>
    by_cases hv : translate s.pages (vpnOf a) = none
    · rw [hostMove_writeByte_refused hv] at h
      cases h
    · rw [hostMove_writeByte hv] at h
      cases h
      exact hs.of_host rfl rfl rfl he (hp.write b (Option.isSome_iff_ne_none.2 hv))

theorem hostStep_inv {s t : State} (hs : s.Inv) (h : hostStep s = .next t) : t.Inv := by
  cases hm : s.host with
  | nil =>
    rw [hostStep_of_noMove hm] at h
    cases h
    exact hs
  | cons m rest =>
    rw [hostStep_of_move hm] at h
    exact hostMove_inv (s := { s with host := rest, event := .none }) (hs.of_host rfl rfl rfl rfl hs.pagesInv) rfl h

/-- Settles O38: a turn of the run loop keeps the invariant, and so does each move of the host. -/
theorem stepKeepsTheInvariant : Obligations.StepKeepsTheInvariant := by
  intro s t hs h
  cases hr : s.running with
  | true => exact runStep_inv hs (step_running hr ▸ h)
  | false => exact hostStep_inv hs (step_idle hr ▸ h)

/-- Settles O39: no page is mapped, no byte is listed, and both counters are 0. -/
theorem resetHasTheInvariant : Obligations.ResetHasTheInvariant := by
  have hbuilt (c : Config) : (State.built c).Inv :=
    ⟨List.Pairwise.nil, Memory.reset_wf, fun _ hc => absurd hc List.not_mem_nil, Nat.zero_le _, Nat.zero_le _,
      fun _ => rfl⟩
  exact ⟨hbuilt _, hbuilt⟩

end Sys2Proof.Machine
end

section
/-! The MMU and the MEM class (20_memory.md R61 to R68, 42_mem.md R170 to R182). -/

namespace Sys2Proof.Machine

/-! ### The MMU (20_memory.md R61, R67) -/

/-- Settles O20: a clause for each branch of the operation, the four byte lanes read or written. -/
theorem memAccessFollowsItsSteps : Obligations.MemAccessFollowsItsSteps := by
  intro s a data hwf
  refine ⟨fun hmiss f => ?_, fun hro => ?_, fun p hp hoff => ?_, fun hrw hoff => ?_⟩
  · cases f with
    | read => rw [memAccess, hmiss]
    | write => rw [memAccess, hmiss]
  · rw [memAccess, hro]
  · refine ⟨s.mem.readWord a.toNat, ?_, byteOf_wordOfBytes _ _ _ _⟩
    simp only [memAccess, hp, pastPageEnd_eq_false.2 hoff, Bool.false_eq_true, if_false]
  · have he := pastPageEnd_eq_false.2 hoff
    refine ⟨s.mem.writeWord a.toNat data, ?_, fun x =>
      Memory.read_writeWord s.mem a.toNat x data (toNat_add_four_le he) hwf⟩
    simp only [memAccess, hrw, he, Bool.false_eq_true, if_false]

/-- A MemRead that succeeds gives the Word at its address. -/
theorem memRead_inv {s : State} {a w : Word} (h : memRead s a = .done w) : w = s.mem.readWord a.toNat := by
  rcases memRead_cases s a with ⟨-, e⟩ | ⟨_, -, -, e⟩ | ⟨_, -, -, e⟩ <;> rw [e] at h
  · cases h
  · cases h
  · exact (MmuResult.done.inj h).symm

/-- Settles O21: the Word written is read back, and each lane of another read holds a byte of it or an old one. -/
theorem wordRoundTripThroughTheMmu : Obligations.WordRoundTripThroughTheMmu := by
  intro s t a v hwf h
  obtain ⟨hp, he, rfl⟩ := memWrite_inv h
  have hbound := toNat_add_four_le he
  refine ⟨?_, fun b w _ hread k hk => ?_⟩
  · rw [memRead_done (s := { s with mem := s.mem.writeWord a.toNat v }) hp he,
      Memory.readWord_writeWord s.mem a.toNat v hbound hwf]
  · rw [memRead_inv hread, byteOf_readWord _ _ _ hk, Memory.read_writeWord_range s.mem a.toNat _ v hbound hwf]

/-! ### Loads (42_mem.md R171 to R176) -/

/-- The containing word of `ea` with the sub-word at `ea` shifted down to bit 0 (R171). -/
def subWord (s : State) (ea : Word) : Word := s.mem.readWord (containingWord ea).toNat >>> bitOffset ea

theorem subWord_byte (s : State) (ea : Word) : bits (subWord s ea) 0 8 = s.mem.read ea.toNat := extracted_byte s.mem ea

theorem loadSub_result {s : State} {rd rs1 : Reg} {imm : BitVec 12} {p : Perm} (f : Word → Word)
    (h : translate s.pages (vpnOf (effectiveAddress s rs1 imm)) = some p) :
    loadSub f rd rs1 imm s =
      .next { s.writeReg rd (f (subWord s (effectiveAddress s rs1 imm))) with pc := s.pc + 4, event := .none } := by
  rw [loadSub_done f h, loadResult_eq, subWord]

section
variable {s : State} {rd rs1 : Reg} {imm : BitVec 12} {p : Perm}
  (h : translate s.pages (vpnOf (effectiveAddress s rs1 imm)) = some p)
include h

theorem exec_lb : exec (.lb rd rs1 imm) s =
    .next { s.writeReg rd ((bits (subWord s (effectiveAddress s rs1 imm)) 0 8).signExtend 32) with
      pc := s.pc + 4, event := .none } := loadSub_result (fun w => (bits w 0 8).signExtend 32) h

theorem exec_lbu : exec (.lbu rd rs1 imm) s =
    .next { s.writeReg rd ((bits (subWord s (effectiveAddress s rs1 imm)) 0 8).setWidth 32) with
      pc := s.pc + 4, event := .none } := loadSub_result (fun w => (bits w 0 8).setWidth 32) h

theorem exec_lh : exec (.lh rd rs1 imm) s =
    .next { s.writeReg rd ((bits (subWord s (effectiveAddress s rs1 imm)) 0 16).signExtend 32) with
      pc := s.pc + 4, event := .none } := loadSub_result (fun w => (bits w 0 16).signExtend 32) h

theorem exec_lhu : exec (.lhu rd rs1 imm) s =
    .next { s.writeReg rd ((bits (subWord s (effectiveAddress s rs1 imm)) 0 16).setWidth 32) with
      pc := s.pc + 4, event := .none } := loadSub_result (fun w => (bits w 0 16).setWidth 32) h

theorem exec_lw (hoff : (effectiveAddress s rs1 imm).toNat % 4096 ≤ 0xFFC) : exec (.lw rd rs1 imm) s =
    .next { s.writeReg rd (s.mem.readWord (effectiveAddress s rs1 imm).toNat) with
      pc := s.pc + 4, event := .none } := by
  rw [exec, execLw, memRead_done h (pastPageEnd_eq_false.2 hoff), afterMmu_done, loadResult_eq]

end

/-- Settles O11: the containing word at its bit offset, its low bits extended. -/
theorem loadsReadAndExtend : Obligations.LoadsReadAndExtend := by
  intro rd rs1 imm s p hp ea w
  have hw : w = subWord s ea := by
    rw [subWord, bitOffset_eq, containingWord]
  rw [hw, ← bits_zero, ← bits_zero]
  exact ⟨exec_lb hp, exec_lbu hp, exec_lh hp, exec_lhu hp, exec_lw hp⟩

/-- Settles O12: the low byte of the shifted word is the byte at the effective address. -/
theorem byteLoadsDeliverTheByte : Obligations.ByteLoadsDeliverTheByte := by
  intro rd rs1 imm s b hb
  obtain ⟨p, hp, rfl⟩ := byteAt_some hb
  rw [exec_lb hp, exec_lbu hp, subWord_byte]
  exact ⟨rfl, rfl⟩

/-- The next address, where it is in the same word. -/
theorem toNat_add_one {ea : Word} (h : ea.toNat % 4 ≤ 2) : (ea + 1).toNat = ea.toNat + 1 := by
  bv_omega

/-- A half-word whose upper byte is 0 is extended with zeros either way (R173). -/
theorem signExtend_low_byte (b : Byte) : (b.setWidth 16).signExtend 32 = b.setWidth 32 := by
  rw [BitVec.signExtend_eq_setWidth_of_msb_false (by simp [BitVec.msb_setWidth])]
  exact BitVec.setWidth_setWidth (by decide)

/-- Settles O13: the extracted half-word is the two bytes, or at offset 3 the one byte with zeros above it. -/
theorem halfwordLoadsByOffset : Obligations.HalfwordLoadsByOffset := by
  intro rd rs1 imm s b0 b1 h0
  obtain ⟨p, hp, rfl⟩ := byteAt_some h0
  rw [exec_lh hp, exec_lhu hp]
  refine ⟨fun hoff h1 => ?_, fun hoff => ?_⟩
  · obtain ⟨_, -, rfl⟩ := byteAt_some h1
    rw [subWord, extracted_half _ _ hoff, toNat_add_one hoff]
    exact ⟨rfl, rfl⟩
  · rw [subWord, extracted_half_last _ _ hoff, signExtend_low_byte]
    exact ⟨rfl, rfl⟩

end Sys2Proof.Machine
end

section
/-! Which bytes a store leaves with which values (20_memory.md R68, 42_mem.md R177 to R180). -/

namespace Sys2Proof.Machine

/-! ### The bytes after a word of a page is written -/

/-- The state in which a store that writes the Word `w` at `a` completes (42_mem.md R177). -/
def State.stored (s : State) (a w : Word) : State :=
  { s with mem := s.mem.writeWord a.toNat w, pc := s.pc + 4, event := .none }

/-- Every byte after a Word is written inside a mapped page. -/
theorem byteAt_stored {s : State} {a : Word} {p : Perm} (w x : Word) (hwf : Memory.wf s.mem)
    (hp : translate s.pages (vpnOf a) = some p) (he : pastPageEnd a = false) :
    (s.stored a w).byteAt x =
      if a.toNat ≤ x.toNat ∧ x.toNat < a.toNat + 4 then some (byteOf w (x.toNat - a.toNat)) else s.byteAt x := by
  have hread := Memory.read_writeWord_range s.mem a.toNat x.toNat w (toNat_add_four_le he) hwf
  rw [State.byteAt, State.byteAt, State.stored, hread]
  split
  · next hx =>
    have hpage : vpnOf x = vpnOf a := by
      have hoff := pastPageEnd_eq_false.1 he
      apply BitVec.eq_of_toNat_eq
      rw [vpnOf_toNat, vpnOf_toNat]
      omega
    rw [hpage, hp]
    rfl
  · rfl

/-- The same, lane by lane from `a`. -/
theorem byteAt_stored_lanes {s : State} {a : Word} {p : Perm} (w x : Word) (hwf : Memory.wf s.mem)
    (hp : translate s.pages (vpnOf a) = some p) (he : pastPageEnd a = false) :
    (s.stored a w).byteAt x =
      if x = a then some (byteOf w 0) else if x = a + 1 then some (byteOf w 1)
      else if x = a + 2 then some (byteOf w 2) else if x = a + 3 then some (byteOf w 3) else s.byteAt x := by
  have hbound := toNat_add_four_le he
  have h0 : x = a ↔ x.toNat = a.toNat := BitVec.toNat_inj.symm
  have h1 : x = a + 1 ↔ x.toNat = a.toNat + 1 := by bv_omega
  have h2 : x = a + 2 ↔ x.toNat = a.toNat + 2 := by bv_omega
  have h3 : x = a + 3 ↔ x.toNat = a.toNat + 3 := by bv_omega
  simp only [byteAt_stored w x hwf hp he, h0, h1, h2, h3]
  by_cases hx : a.toNat ≤ x.toNat ∧ x.toNat < a.toNat + 4
  · obtain ⟨n, hn⟩ := Nat.exists_eq_add_of_le hx.1
    have hn4 : n < 4 := by omega
    rw [if_pos hx, hn]
    interval_cases n <;> simp
  · rw [if_neg hx, if_neg (by omega), if_neg (by omega), if_neg (by omega), if_neg (by omega)]

/-- A sub-word store writes the containing word, byte by byte of the merged Word. -/
theorem byteAt_stored_word {s : State} {ea : Word} {p : Perm} (w x : Word) (hwf : Memory.wf s.mem)
    (hp : translate s.pages (vpnOf ea) = some p) :
    (s.stored (containingWord ea) w).byteAt x =
      if x.toNat / 4 = ea.toNat / 4 then some (byteOf w (x.toNat % 4)) else s.byteAt x := by
  rw [byteAt_stored w x hwf (by rwa [vpnOf_containingWord]) (pastPageEnd_containingWord ea), containingWord_toNat]
  by_cases hx : x.toNat / 4 = ea.toNat / 4
  · rw [if_pos (by omega), if_pos hx]
    congr 2
    omega
  · rw [if_neg (by omega), if_neg hx]

/-- A byte of the containing word is a lane of the Word a sub-word store reads first. -/
theorem byteAt_of_same_word {s : State} {ea x : Word} {p : Perm} (hp : translate s.pages (vpnOf ea) = some p)
    (hx : x.toNat / 4 = ea.toNat / 4) :
    s.byteAt x = some (byteOf (s.mem.readWord (containingWord ea).toNat) (x.toNat % 4)) := by
  have hpage : vpnOf x = vpnOf ea := by
    apply BitVec.eq_of_toNat_eq
    rw [vpnOf_toNat, vpnOf_toNat]
    omega
  rw [State.byteAt, hpage, hp, byteOf_readWord _ _ _ (Nat.mod_lt _ (by decide)), containingWord_toNat]
  exact congrArg (fun n => some (s.mem.read n)) (by omega)

/-! ### The two merges, as bytes of the containing word -/

/-- SB changes the byte at `ea` alone (42_mem.md R178). -/
theorem byteAt_storeByte {s : State} {ea : Word} {p : Perm} (src x : Word) (hwf : Memory.wf s.mem)
    (hp : translate s.pages (vpnOf ea) = some p) :
    (s.stored (containingWord ea)
      (mergeByte (bitOffset ea) src (s.mem.readWord (containingWord ea).toNat))).byteAt x =
      if x = ea then some (byteOf src 0) else s.byteAt x := by
  have hlane (k : Nat) : k % 4 < 4 := Nat.mod_lt _ (by decide)
  rw [byteAt_stored_word _ x hwf hp, bitOffset_eq, byteOf_mergeByte _ _ _ _ (hlane _) (hlane _)]
  by_cases hword : x.toNat / 4 = ea.toNat / 4
  · rw [if_pos hword, byteAt_of_same_word hp hword]
    by_cases hx : x = ea
    · rw [if_pos hx, if_pos (by rw [hx])]
    · rw [if_neg hx, if_neg (by bv_omega)]
  · rw [if_neg hword, if_neg (by rintro rfl; exact hword rfl)]

/-- SH in terms of the lane of `x` in the containing word: two lanes take the source, and with SH_MASK16 false the
lanes above them have the source's upper bytes ORed in (42_mem.md R179). -/
theorem byteAt_storeHalf_lane {s : State} {ea : Word} {p : Perm} (mask : Bool) (src x : Word) (hwf : Memory.wf s.mem)
    (hp : translate s.pages (vpnOf ea) = some p) (hword : x.toNat / 4 = ea.toNat / 4) :
    (s.stored (containingWord ea)
      (mergeHalf mask (bitOffset ea) src (s.mem.readWord (containingWord ea).toNat))).byteAt x =
      if x.toNat % 4 < ea.toNat % 4 then s.byteAt x
      else if x.toNat % 4 < ea.toNat % 4 + 2 then some (byteOf src (x.toNat % 4 - ea.toNat % 4))
      else if mask then s.byteAt x
      else (s.byteAt x).map (fun old => old ||| byteOf src (x.toNat % 4 - ea.toNat % 4)) := by
  have hlane (k : Nat) : k % 4 < 4 := Nat.mod_lt _ (by decide)
  rw [byteAt_stored_word _ x hwf hp, if_pos hword, bitOffset_eq, byteOf_mergeHalf _ _ _ _ _ (hlane _) (hlane _),
    byteAt_of_same_word hp hword, apply_ite some, apply_ite some, apply_ite some]
  rfl

/-- The lane of an address `k` bytes above `ea` in its word. -/
theorem eq_add_iff_lane (x ea : Word) (k : Nat) (hk : k < 4) :
    x = ea + BitVec.ofNat 32 k ∧ ea.toNat % 4 ≤ 3 - k ↔
      x.toNat / 4 = ea.toNat / 4 ∧ x.toNat % 4 = ea.toNat % 4 + k := by
  have hea := ea.isLt
  have hk32 : k % 2 ^ 32 = k := Nat.mod_eq_of_lt (by omega)
  rw [← BitVec.toNat_inj, BitVec.toNat_add, BitVec.toNat_ofNat, hk32]
  omega

/-- SH by the address of each byte, in the containing word and outside it (42_mem.md R179). -/
theorem byteAt_storeHalf {s : State} {ea : Word} {p : Perm} (mask : Bool) (src x : Word) (hwf : Memory.wf s.mem)
    (hp : translate s.pages (vpnOf ea) = some p) :
    (s.stored (containingWord ea)
      (mergeHalf mask (bitOffset ea) src (s.mem.readWord (containingWord ea).toNat))).byteAt x =
      if x = ea then some (byteOf src 0)
      else if x = ea + 1 ∧ ea.toNat % 4 ≤ 2 then some (byteOf src 1)
      else if x = ea + 2 ∧ ea.toNat % 4 ≤ 1 ∧ mask = false then (s.byteAt x).map (fun old => old ||| byteOf src 2)
      else if x = ea + 3 ∧ ea.toNat % 4 = 0 ∧ mask = false then (s.byteAt x).map (fun old => old ||| byteOf src 3)
      else s.byteAt x := by
  have h0 : x = ea ↔ x.toNat / 4 = ea.toNat / 4 ∧ x.toNat % 4 = ea.toNat % 4 := by bv_omega
  have h1 : x = ea + 1 ∧ ea.toNat % 4 ≤ 2 ↔ _ := eq_add_iff_lane x ea 1 (by decide)
  have h2 : x = ea + 2 ∧ ea.toNat % 4 ≤ 1 ↔ _ := eq_add_iff_lane x ea 2 (by decide)
  have h3 : x = ea + 3 ∧ ea.toNat % 4 = 0 ↔ _ :=
    (and_congr_right' Nat.le_zero.symm).trans (eq_add_iff_lane x ea 3 (by decide))
  simp only [h0, h1, ← and_assoc, h2, h3]
  by_cases hword : x.toNat / 4 = ea.toNat / 4
  · have hlane : x.toNat % 4 < 4 := Nat.mod_lt _ (by decide)
    simp only [byteAt_storeHalf_lane mask src x hwf hp hword, hword, true_and]
    generalize x.toNat % 4 = j at hlane
    generalize ea.toNat % 4 = k
    rcases Nat.lt_or_ge j k with hlt | hge
    · have hne (n : Nat) : j ≠ k + n := by omega
      simp [hlt, hlt.ne, hne]
    · obtain ⟨n, rfl⟩ := Nat.exists_eq_add_of_le hge
      have hn : n < 4 := by omega
      cases mask <;> interval_cases n <;> simp
  · simp only [byteAt_stored_word _ x hwf hp, hword, false_and, if_false]

/-! ### The three stores -/

theorem exec_sb {s : State} {rs2 rs1 : Reg} {imm : BitVec 12}
    (hp : translate s.pages (vpnOf (effectiveAddress s rs1 imm)) = some .readWrite) :
    let ea := effectiveAddress s rs1 imm
    exec (.sb rs2 rs1 imm) s = .next (s.stored (containingWord ea)
      (mergeByte (bitOffset ea) (s.readReg rs2) (s.mem.readWord (containingWord ea).toNat))) :=
  storeAt_done (by rwa [vpnOf_containingWord]) (pastPageEnd_containingWord _)

theorem exec_sh {s : State} {rs2 rs1 : Reg} {imm : BitVec 12}
    (hp : translate s.pages (vpnOf (effectiveAddress s rs1 imm)) = some .readWrite) :
    let ea := effectiveAddress s rs1 imm
    exec (.sh rs2 rs1 imm) s = .next (s.stored (containingWord ea)
      (mergeHalf s.config.shMask16 (bitOffset ea) (s.readReg rs2) (s.mem.readWord (containingWord ea).toNat))) :=
  storeAt_done (by rwa [vpnOf_containingWord]) (pastPageEnd_containingWord _)

theorem exec_sw {s : State} {rs2 rs1 : Reg} {imm : BitVec 12}
    (hp : translate s.pages (vpnOf (effectiveAddress s rs1 imm)) = some .readWrite)
    (he : pastPageEnd (effectiveAddress s rs1 imm) = false) :
    exec (.sw rs2 rs1 imm) s = .next (s.stored (effectiveAddress s rs1 imm) (s.readReg rs2)) :=
  storeAt_done hp he

/-- Settles O17: the containing word is written back with one lane changed. -/
theorem storeByteEffect : Obligations.StoreByteEffect := fun _ _ _ _ hwf hp =>
  ⟨_, exec_sb hp, fun x => byteAt_storeByte _ x hwf hp⟩

/-- Settles O18: the containing word is written back, and `byteAt_storeHalf` says each of its bytes. -/
theorem storeHalfwordEffect : Obligations.StoreHalfwordEffect := fun _ _ _ _ hwf hp =>
  ⟨_, exec_sh hp, fun x => byteAt_storeHalf _ _ x hwf hp⟩

/-- Settles O19: the four lanes of the Word written at the effective address. -/
theorem storeWordEffect : Obligations.StoreWordEffect := fun _ _ _ _ hwf hp hoff =>
  have he := pastPageEnd_eq_false.2 hoff
  ⟨_, exec_sw hp he, fun x => byteAt_stored_lanes _ x hwf hp he⟩

end Sys2Proof.Machine
end

section
/-! Faults and refusals of memory accesses (20_memory.md R66, 42_mem.md R182), and what an instruction leaves as it was
(10_state.md R25, R34, 20_memory.md R68). -/

namespace Sys2Proof.Machine

/-! ### Faults (42_mem.md R182, 60_exceptions.md R214, R215) -/

/-- An access whose read phase misses ends with the fault of `ea` (R182). -/
theorem afterRead_absent {s : State} {a : Word} (h : translate s.pages (vpnOf a) = none) (ea : Word)
    (k : Word → Answer) : afterMmu (memRead s a) s ea k = .next (s.raise (.pageFaultMiss ea s.pc)) := by
  rw [memRead_miss h, afterMmu_fault, MmuFault.event]

/-- Settles O14: every load begins with a read, of the containing word or of the word at the address. -/
theorem loadsFaultOnAbsentPage : Obligations.LoadsFaultOnAbsentPage := by
  intro rd rs1 imm s h
  have hword : translate s.pages (vpnOf (containingWord (effectiveAddress s rs1 imm))) = none := by
    rwa [vpnOf_containingWord]
  exact ⟨afterRead_absent hword _ _, afterRead_absent hword _ _, afterRead_absent h _ _, afterRead_absent hword _ _,
    afterRead_absent hword _ _⟩

/-- A store's write phase faults where its page is ReadOnly (R177). -/
theorem storeAt_readOnly {s : State} {a : Word} (h : translate s.pages (vpnOf a) = some .readOnly)
    (he : pastPageEnd a = false) (ea : Word) (merge : Word → Word) :
    storeAt a ea merge s = .next (s.raise (.pageFaultPerms ea s.pc)) := by
  rw [storeAt, memRead_done h he, afterMmu_done, memWrite_perms h, afterMmu_fault, MmuFault.event]

/-- Settles O15: the read phase misses an absent page, the write phase is denied on a ReadOnly one. -/
theorem storesFaultOnAbsentOrReadOnlyPage : Obligations.StoresFaultOnAbsentOrReadOnlyPage := by
  intro rs2 rs1 imm s ea
  have hpage := vpnOf_containingWord ea
  have hend := pastPageEnd_containingWord ea
  refine ⟨fun h => ?_, fun h => ?_⟩
  · exact ⟨afterRead_absent (hpage ▸ h) ea _, afterRead_absent (hpage ▸ h) ea _, afterRead_absent h ea _⟩
  · exact ⟨storeAt_readOnly (hpage ▸ h) hend ea _, storeAt_readOnly (hpage ▸ h) hend ea _,
      fun hoff => storeAt_readOnly h (pastPageEnd_eq_false.2 hoff) ea _⟩

/-! ### The refusal (20_memory.md R66) -/

theorem afterRead_pastEnd {s : State} {a : Word} {p : Perm} (h : translate s.pages (vpnOf a) = some p)
    (he : 0xFFC < a.toNat % 4096) (ea : Word) (k : Word → Answer) :
    afterMmu (memRead s a) s ea k = .refused .wordPastPageEnd := by
  rw [memRead_pastEnd h (pastPageEnd_eq_true.2 he), afterMmu_noMeaning]

/-- Settles O16: LW, SW and the fetch begin with a read at an address that is not rounded. -/
theorem wordAccessPastPageEndIsRefused : Obligations.WordAccessPastPageEndIsRefused := by
  intro r rs1 imm s p
  refine ⟨fun h he => ⟨afterRead_pastEnd h he _ _, afterRead_pastEnd h he _ _⟩, fun hr h he => ?_⟩
  have hstep : singleStep s = .refused .wordPastPageEnd := afterRead_pastEnd h he _ _
  rw [step_running hr, runStep, hstep]

/-! ### Frames (10_state.md R25, R34, 20_memory.md R68) -/

/-- Settles O25: the registers by what each outcome writes, the other fields by `exec_keeps`. -/
theorem execFrame : Obligations.ExecFrame := by
  intro i s t h
  refine ⟨fun r hr => ?_, exec_keeps h⟩
  rcases exec_next h with ⟨rd, v, pc', hd, -, rfl, -⟩ | ⟨_, -, -, rfl, -⟩ | ⟨_, _, -, -, -, rfl⟩ | ⟨_, -, rfl⟩ |
    ⟨_, -, -, rfl⟩ | ⟨-, rfl⟩ | ⟨-, rfl⟩
  · exact State.readReg_writeReg_other s r rd v fun e => hr (e ▸ hd)
  all_goals rfl

/-- Settles O26: only an outcome of a store writes the memory. -/
theorem nonStoresKeepMemory : Obligations.NonStoresKeepMemory := by
  intro i s t hi h
  obtain ⟨-, -, -, hpages, -, -⟩ := exec_keeps h
  have hmem : t.mem = s.mem := by
    rcases exec_next h with ⟨_, _, _, -, -, rfl, -⟩ | ⟨_, -, -, rfl, -⟩ | ⟨_, _, hs, -, -, -⟩ | ⟨_, -, rfl⟩ |
      ⟨_, -, -, rfl⟩ | ⟨-, rfl⟩ | ⟨-, rfl⟩
    · exact State.writeReg_mem s _ _
    · rfl
    · rw [hi] at hs
      cases hs
    all_goals rfl
  exact ⟨hmem, byteAt_congr hpages hmem⟩

/-- A store that answers a next state has written its word or left every byte. -/
theorem storeAt_bytes {a ea : Word} {merge : Word → Word} {s t : State} (hv : vpnOf a = vpnOf ea)
    (h : storeAt a ea merge s = .next t) :
    (translate s.pages (vpnOf ea) = some .readWrite ∧ pastPageEnd a = false ∧
      t = s.stored a (merge (s.mem.readWord a.toNat))) ∨ ∀ x, t.byteAt x = s.byteAt x := by
  rcases storeAt_next hv h with ⟨hp, he, ht⟩ | ⟨-, rfl⟩ | ⟨-, rfl⟩
  · exact .inl ⟨hv ▸ hp, he, ht⟩
  · exact .inr fun _ => rfl
  · exact .inr fun _ => rfl

/-- Settles O27: what each store's word holds after it, at the addresses that are not among the store's own. -/
theorem storesChangeOnlyTheirBytes : Obligations.StoresChangeOnlyTheirBytes := by
  intro rs2 rs1 imm s t x hwf ea
  have hpage := vpnOf_containingWord ea
  refine ⟨fun h hx => ?_, fun h hx => ?_, fun h h0 h1 h2 h3 => ?_⟩
  · rcases storeAt_bytes hpage h with ⟨hp, -, rfl⟩ | hsame
    · exact (byteAt_storeByte _ x hwf hp).trans (if_neg hx)
    · exact hsame x
  · rcases storeAt_bytes hpage h with ⟨hp, -, rfl⟩ | hsame
    · refine (byteAt_stored_word _ x hwf hp).trans (if_neg fun hword => hx ?_)
      apply BitVec.eq_of_toNat_eq
      rw [containingWord_toNat, containingWord_toNat]
      omega
    · exact hsame x
  · rcases storeAt_bytes rfl h with ⟨hp, he, rfl⟩ | hsame
    · rw [byteAt_stored_lanes _ x hwf hp he, if_neg h0, if_neg h1, if_neg h2, if_neg h3]
    · exact hsame x

end Sys2Proof.Machine
end

section
/-! The ALU class by its control-signal records (41_alu.md R140 to R152), the jumps and the two environment
instructions (43_ctrl.md R191, R192, R200, R201). -/

namespace Sys2Proof.Machine

/-! ### The ALU class -/

/-- The class of an instruction is ALU exactly where R101 gives it a record. -/
theorem instrClass_alu_iff (i : Instr) : instrClass i = .alu ↔ ∃ sig, aluSignals i = some sig := by
  cases i <;> simp [instrClass, aluSignals]

/-- Settles O10: `exec` runs the record wherever there is one. -/
theorem aluClassRunsItsRecord : Obligations.AluClassRunsItsRecord := fun i s =>
  ⟨instrClass_alu_iff i, fun _ h => exec_of_aluSignals h s⟩

/-- An instruction whose record names rs1 and the I-immediate. -/
theorem exec_of_immediateSignals (op : AluOp) {i : Instr} {rd rs1 : Reg} {imm : BitVec 12}
    (h : aluSignals i = some ⟨op, .rs1 rs1, .immI imm, rd⟩) (s : State) :
    exec i s =
      .next { s.writeReg rd (alu op (s.readReg rs1) (imm.signExtend 32)) with pc := s.pc + 4, event := .none } :=
  exec_of_aluSignals h s

/-- An instruction whose record adds the U-immediate. -/
theorem exec_of_upperSignals (o : Operand1) {i : Instr} {rd : Reg} {imm : BitVec 20}
    (h : aluSignals i = some ⟨.add, o, .immU imm, rd⟩) (s : State) :
    exec i s = .next { s.writeReg rd (o.value s + imm.setWidth 32 <<< 12) with pc := s.pc + 4, event := .none } :=
  exec_of_aluSignals h s

/-- Settles O3: both records add the U-immediate, LUI's to 0. -/
theorem upperImmediateResults : Obligations.UpperImmediateResults := by
  intro rd imm s
  have hzero : Operand1.zero.value s + imm.setWidth 32 <<< 12 = imm.setWidth 32 <<< 12 := BitVec.zero_add _
  exact ⟨hzero ▸ exec_of_upperSignals .zero rfl s, exec_of_upperSignals .pc rfl s⟩

/-- Settles O4: each instruction runs the operation its record names. -/
theorem immediateArithmeticResults : Obligations.ImmediateArithmeticResults := fun _ _ _ s =>
  ⟨exec_of_immediateSignals .add rfl s, exec_of_immediateSignals .xor rfl s, exec_of_immediateSignals .or rfl s,
    exec_of_immediateSignals .and rfl s⟩

/-- Settles O5: each comparison gives the Word 1 or 0, and sign extension keeps the two's-complement value. -/
theorem immediateComparisonResults : Obligations.ImmediateComparisonResults := by
  intro rd rs1 imm s
  rw [← BitVec.toInt_signExtend_of_le (x := imm) (v := 32) (by decide), ← alu_slt, ← alu_sltu]
  exact ⟨exec_of_immediateSignals .slt rfl s, exec_of_immediateSignals .sltu rfl s⟩

/-- A shift's immediate moves by its shift amount field alone, whatever funct7 stands above it (R150 to R152). -/
theorem alu_shiftImm (a : Word) (f : BitVec 7) (k : BitVec 5) :
    alu .sll a ((shiftImm f k).signExtend 32) = a <<< k.toNat ∧
    alu .srl a ((shiftImm f k).signExtend 32) = a >>> k.toNat ∧
    alu .sra a ((shiftImm f k).signExtend 32) = a.sshiftRight k.toNat := by
  rw [alu, alu, alu, shiftAmount_shiftImm]
  exact ⟨rfl, rfl, rfl⟩

/-- Settles O6: each record shifts by an immediate of which only the shift amount counts. -/
theorem immediateShiftResults : Obligations.ImmediateShiftResults := by
  intro rd rs1 shamt s
  obtain ⟨hsll, hsrl, -⟩ := alu_shiftImm (s.readReg rs1) 0b0000000 shamt
  obtain ⟨-, -, hsra⟩ := alu_shiftImm (s.readReg rs1) 0b0100000 shamt
  rw [← hsll, ← hsrl, ← hsra]
  exact ⟨exec_of_immediateSignals .sll rfl s, exec_of_immediateSignals .srl rfl s,
    exec_of_immediateSignals .sra rfl s⟩

/-! ### Jumps -/

theorem linkAndJump_eq (rd : Reg) (target : Word) (s : State) :
    linkAndJump rd target s = .next { s.writeReg rd (s.pc + 4) with pc := target, event := .none } := rfl

/-- Clearing bit 0 clears bit 0 and no other (R192). -/
theorem getLsbD_clear_bit_zero (w : Word) (k : Nat) :
    (w &&& 0xFFFFFFFE).getLsbD k = (decide (k ≠ 0) && w.getLsbD k) := by
  have hmask : (0xFFFFFFFE : Word) = ~~~1 := rfl
  rw [hmask, BitVec.getLsbD_and, BitVec.getLsbD_not, BitVec.ofNat_eq_ofNat, BitVec.getLsbD_one]
  rcases Nat.lt_or_ge k 32 with hk | hk
  · simp [hk, Bool.and_comm]
  · simp [BitVec.getLsbD_of_ge w k hk]

/-- Settles O22: JALR's target is the sum with bit 0 cleared. -/
theorem jumpResults : Obligations.JumpResults := fun rd rs1 off imm s =>
  ⟨linkAndJump_eq rd (jalTarget s off) s, jalrTarget s rs1 imm, linkAndJump_eq rd _ s,
    getLsbD_clear_bit_zero _ 0, fun k hk => by
      rw [jalrTarget, getLsbD_clear_bit_zero, decide_eq_true (by omega), Bool.true_and]⟩

/-! ### ECALL and EBREAK -/

/-- A word that decodes to an instruction is that instruction's own encoding and no other word (R100). -/
theorem decodeWord_eq_ok_iff {i : Instr} (hwf : i.wellFormed = true) (w : Word) :
    decodeWord w = .ok i ↔ w = encode i :=
  ⟨fun h => (encodeOfDecode w i h).2.symm, fun h => h ▸ decodeOfEncode i hwf⟩

/-- Settles O24: the handlers write nothing else, and the two words are the two encodings. -/
theorem ecallAndEbreakRaiseTheirEvents : Obligations.EcallAndEbreakRaiseTheirEvents := fun _ w =>
  ⟨rfl, rfl, decodeWord_eq_ok_iff rfl w, decodeWord_eq_ok_iff rfl w⟩

end Sys2Proof.Machine
end

section
/-! The single step and the turn of the run loop: which event it ends in, when it is refused, and what it leaves as it
was (40_step.md R130 to R134, 60_exceptions.md R218). -/

namespace Sys2Proof.Machine

/-! ### Decoding at `pc` -/

/-- Settles O31: the decoder rejects the word, and the step raises the event. -/
theorem unmatchedWordRaisesIllegalInstruction : Obligations.UnmatchedWordRaisesIllegalInstruction := by
  intro s w hf hw
  rw [singleStep, hf, afterMmu_done, decodeWord_illegal hw]
  rfl

/-- The decoder on four bytes is the decoder on their Word. -/
theorem decodeWord_of_decodeBytes {b0 b1 b2 b3 : Byte} {i : Instr} {rest : List Byte}
    (h : decodeBytes [b0, b1, b2, b3] = .ok (i, rest)) : decodeWord (wordOfBytes b0 b1 b2 b3) = .ok i := by
  cases hd : decodeWord (wordOfBytes b0 b1 b2 b3) with
  | ok j =>
    rw [decodeBytes, hd] at h
    cases h
    rfl
  | error e =>
    rw [decodeBytes, hd] at h
    cases h

/-- A turn of the run loop is a single step and the counting after it. -/
theorem runStep_eq (s : State) : runStep s = mapNext State.afterStep (singleStep s) := by
  rw [runStep]
  cases singleStep s <;> rfl

/-- Settles O32: the Word at `pc` is the four bytes there, so its decoding is the executed instruction. -/
theorem stepRunsTheDecodedInstruction : Obligations.StepRunsTheDecodedInstruction := by
  intro s p i hr hp hoff hd
  have hruns : Runs s i := ⟨_, fetch_of_mapped hp hoff, decodeWord_of_decodeBytes hd⟩
  rw [step_running hr, runStep_eq, singleStep_runs hruns]

/-! ### Events (60_exceptions.md R210 to R218) -/

/-- Every single step that answers a next state, by its event: None, Ecall with `pc` advanced, or another event with
nothing else changed, which a memory fault's address and a permission fault's store explain. -/
theorem singleStep_event {s t : State} (h : singleStep s = .next t) :
    t.event = .none ∨ t = { s with pc := s.pc + 4, event := .ecall } ∨
    ∃ e, t = s.raise e ∧ (e = .illegalInstruction ∨ e = .ebreak ∨
      (∃ a, e = .pageFaultMiss a s.pc ∧ translate s.pages (vpnOf a) = none) ∨
      ∃ a i, e = .pageFaultPerms a s.pc ∧ translate s.pages (vpnOf a) = some .readOnly ∧ Runs s i ∧
        isStore i = true) := by
  rcases singleStep_next h with ⟨hm, ht⟩ | ⟨i, hi, h⟩ | ⟨_, _, -, -, ht⟩
  · exact .inr (.inr ⟨_, ht, .inr (.inr (.inl ⟨_, rfl, hm⟩))⟩)
  · rcases exec_next h with ⟨_, _, _, -, -, rfl, -⟩ | ⟨_, -, -, rfl, -⟩ | ⟨_, _, -, -, -, rfl⟩ | ⟨ea, hm, ht⟩ |
      ⟨ea, hs, hp, ht⟩ | ⟨-, ht⟩ | ⟨-, ht⟩
    · exact .inl rfl
    · exact .inl rfl
    · exact .inl rfl
    · exact .inr (.inr ⟨_, ht, .inr (.inr (.inl ⟨ea, rfl, hm⟩))⟩)
    · exact .inr (.inr ⟨_, ht, .inr (.inr (.inr ⟨ea, i, rfl, hp, hi, hs⟩))⟩)
    · exact .inr (.inl ht)
    · exact .inr (.inr ⟨_, ht, .inr (.inl rfl)⟩)
  · exact .inr (.inr ⟨_, ht, .inl rfl⟩)

/-- Settles O28: of the three kinds of outcome, each event belongs to one. -/
theorem eventsArePrecise : Obligations.EventsArePrecise := by
  intro s t h
  refine ⟨singleStep_not_clock h, fun he => ?_, fun hnone hecall => ?_⟩
  · rcases singleStep_event h with hn | ht | ⟨e, rfl, hev⟩
    · rw [hn] at he
      cases he
    · exact ht
    · rw [State.raise_event] at he
      subst he
      simp at hev
  · rcases singleStep_event h with hn | rfl | ⟨e, rfl, -⟩
    · exact absurd hn hnone
    · exact absurd rfl hecall
    · rfl

/-- Settles O29: the two outcomes that raise a memory fault, with their page and their `pc`. -/
theorem memoryFaultPayload : Obligations.MemoryFaultPayload := by
  intro s t fa fpc h
  rcases singleStep_event h with hn | rfl | ⟨e, rfl, rfl | rfl | ⟨a, rfl, hm⟩ | ⟨a, i, rfl, hp, hi, hs⟩⟩
  · simp [hn]
  · simp
  · simp
  · simp
  · refine ⟨fun he => ?_, fun he => nomatch he⟩
    cases he
    exact ⟨rfl, hm⟩
  · refine ⟨fun he => (nomatch he), fun he => ?_⟩
    cases he
    exact ⟨rfl, hp, i, hi, hs⟩

/-! ### The refusal (20_memory.md R66) -/

/-- A turn of the run loop answers a next state or is refused where its single step is. -/
theorem runStep_cases (s : State) :
    (∃ t, singleStep s = .next t ∧ runStep s = .next t.afterStep) ∨
    ∃ r, singleStep s = .refused r ∧ runStep s = .refused r := by
  cases hs : singleStep s with
  | next t => exact .inl ⟨t, rfl, runStep_of_next hs⟩
  | fault r => cases r
  | refused r => exact .inr ⟨r, rfl, by rw [runStep, hs]⟩

/-- Settles O33: there is no fault to raise, and a single step has one refusal. -/
theorem runningStepAnswersOrIsPastPageEnd : Obligations.RunningStepAnswersOrIsPastPageEnd := by
  intro s hr
  rw [step_running hr]
  rcases runStep_cases s with ⟨t, -, e⟩ | ⟨r, hs, e⟩
  · exact .inl ⟨_, e⟩
  · exact .inr ((singleStep_refused hs).1 ▸ e)

/-- A word at a multiple of 4 ends inside its page. -/
theorem pastPageEnd_of_aligned {a : Word} (h : a.toNat % 4 = 0) : ¬pastPageEnd a = true := by
  rw [pastPageEnd_eq_true]
  omega

/-- Settles O34: the fetch and the word access are the only reads that can run past a page's end. -/
theorem alignedStepIsNeverRefused : Obligations.AlignedStepIsNeverRefused := by
  intro s hr hpc hword
  rw [step_running hr]
  rcases runStep_cases s with ⟨t, -, e⟩ | ⟨r, hs, -⟩
  · exact ⟨_, e⟩
  · obtain ⟨-, hend | ⟨i, a, hi, ha, hend⟩⟩ := singleStep_refused hs
    · exact absurd hend (pastPageEnd_of_aligned hpc)
    · exact absurd hend (pastPageEnd_of_aligned (hword i a hi ha))

/-! ### What a step of a run leaves as it was -/

/-- A step of a run that answers a next state is a single step and the counting after it. -/
theorem step_running_next {s t : State} (hr : s.running = true) (h : step s = .next t) :
    ∃ u, singleStep s = .next u ∧ t = u.afterStep := runStep_next (step_running hr ▸ h)

/-- Settles O35: neither the single step nor the counting after it changes these fields. -/
theorem runningStepKeepsTranslation : Obligations.RunningStepKeepsTranslation := by
  intro s t hr h
  obtain ⟨u, hu, rfl⟩ := step_running_next hr h
  obtain ⟨hconfig, -, -, hpages, -, hhost⟩ := singleStep_keeps hu
  exact ⟨(State.afterStep_pages u).trans hpages, (State.afterStep_config u).trans hconfig,
    (State.afterStep_host u).trans hhost⟩

/-- The bytes after a step of a run: the old ones, or one word of a ReadWrite page changed by a completed store. -/
theorem step_running_bytes {s t : State} (hr : s.running = true) (h : step s = .next t) :
    (∀ x, t.byteAt x = s.byteAt x) ∨
    ((∃ i, Runs s i ∧ isStore i = true ∧ t.pc = s.pc + 4) ∧
      ∀ x, translate s.pages (vpnOf x) = some .readOnly → t.byteAt x = s.byteAt x) := by
  obtain ⟨hpages, -, -⟩ := runningStepKeepsTranslation s t hr h
  obtain ⟨u, hu, rfl⟩ := step_running_next hr h
  rcases singleStep_mem hu with hm | ⟨i, a, w, hi, hs, hp, he, hm, hpc, -⟩
  · exact .inl (byteAt_congr hpages ((State.afterStep_mem u).trans hm))
  · refine .inr ⟨⟨i, hi, hs, (State.afterStep_pc u).trans hpc⟩, fun x hx => ?_⟩
    have hpage : vpnOf x ≠ vpnOf a := fun e => by simp [e, hp] at hx
    rw [State.byteAt, State.byteAt, hpages, State.afterStep_mem, hm, read_writeWord_other_page hpage he]

/-- Settles O36: the one word a step can change lies in a ReadWrite page. -/
theorem runningStepKeepsReadOnlyBytes : Obligations.RunningStepKeepsReadOnlyBytes := by
  intro s t a hr h hro
  rcases step_running_bytes hr h with hsame | ⟨-, hkeeps⟩
  · exact hsame a
  · exact hkeeps a hro

/-- Settles O37: a step that is no completed store leaves every byte. -/
theorem onlyCompletedStoresChangeBytes : Obligations.OnlyCompletedStoresChangeBytes := by
  intro s t a hr h hne
  rcases step_running_bytes hr h with hsame | ⟨hstore, -⟩
  · exact absurd (hsame a) hne
  · exact hstore

/-- An instruction the decoder can give keeps an even `pc` even (R91, R202). -/
theorem exec_keeps_even {i : Instr} {s t : State} (hwf : i.wellFormed = true) (hpc : s.pc.getLsbD 0 = false)
    (h : exec i s = .next t) : t.pc.getLsbD 0 = false := by
  rcases exec_next h with ⟨_, _, _, -, -, rfl, heven⟩ | ⟨_, -, -, rfl, heven⟩ | ⟨_, _, -, -, -, rfl⟩ | ⟨_, -, rfl⟩ |
    ⟨_, -, -, rfl⟩ | ⟨-, rfl⟩ | ⟨-, rfl⟩
  · exact heven hwf hpc
  · exact heven hwf hpc
  · exact even_add hpc rfl
  · exact hpc
  · exact hpc
  · exact even_add hpc rfl
  · exact hpc

/-- Settles O40: what the decoder gives is well-formed, so its branch and jump offsets are even. -/
theorem runningStepKeepsPcEven : Obligations.RunningStepKeepsPcEven := by
  intro s t hr hpc h
  obtain ⟨u, hu, rfl⟩ := step_running_next hr h
  rw [State.afterStep_pc]
  rcases singleStep_next hu with ⟨-, rfl⟩ | ⟨i, ⟨w, -, hd⟩, hi⟩ | ⟨_, _, -, -, rfl⟩
  · exact hpc
  · exact exec_keeps_even (encodeOfDecode w i hd).1 hpc hi
  · exact hpc

end Sys2Proof.Machine
end

section
/-! What a step does not read: the past event, the cycle counter, the clock and the host's moves (10_state.md R30, R31,
R36, 60_exceptions.md R232, R238). -/

namespace Sys2Proof.Machine

/-! ### Two runs side by side -/

theorem mapNext_comp (f g : State → State) (a : Answer) : mapNext f (mapNext g a) = mapNext (f ∘ g) a := by
  cases a <;> rfl

theorem mapNext_id (a : Answer) : mapNext id a = a := by cases a <;> rfl

/-- From two states that agree on what a step reads, a turn of the run loop answers the same but for `V`, where `V`
commutes with the counting. -/
theorem step_running_congr {s u : State} {V : State → State} (hs : s.running = true) (hu : u.running = true)
    (h : SameForExec s u)
    (hV : ∀ regs pc mem ev, { u with regs := regs, pc := pc, mem := mem, event := ev } =
      V { s with regs := regs, pc := pc, mem := mem, event := ev })
    (hafter : ∀ t : State, (V t).afterStep = V t.afterStep) : step u = mapNext V (step s) := by
  have hcomm : State.afterStep ∘ V = V ∘ State.afterStep := funext hafter
  rw [step_running hs, step_running hu, runStep_eq, runStep_eq, singleStep_congr h hV, mapNext_comp, hcomm,
    mapNext_comp]

/-- Settles O41: the event is read by nothing and written on every path. -/
theorem runningStepIgnoresThePastEvent : Obligations.RunningStepIgnoresThePastEvent := by
  intro s e hr
  have h := step_running_congr (u := { s with event := e }) (V := id) hr hr ⟨rfl, rfl, rfl, rfl, rfl⟩
    (fun _ _ _ _ => rfl) (fun _ => rfl)
  rwa [mapNext_id] at h

/-- Settles O54: the run loop's counting leaves the host's moves alone. -/
theorem hostIsNotSeenDuringARun : Obligations.HostIsNotSeenDuringARun := by
  intro s h hr
  refine step_running_congr (V := fun t => { t with host := h }) hr hr ⟨rfl, rfl, rfl, rfl, rfl⟩
    (fun _ _ _ _ => rfl) (fun t => ?_)
  rcases afterStep_cases t with ⟨hfires, e⟩ | ⟨hquiet, e⟩ <;> rw [e]
  · exact State.afterStep_fires _ hfires
  · exact State.afterStep_quiet _ hquiet

/-- Settles O43: the clock's fields are not among those an instruction reads or writes. -/
theorem instructionsIgnoreTheClock : Obligations.InstructionsIgnoreTheClock := fun i _ _ _ _ _ =>
  exec_congr i ⟨rfl, rfl, rfl, rfl, rfl⟩ fun _ _ _ _ => rfl

/-- Settles O50: such an event changed nothing else, so the resumed step reads what the first one read. -/
theorem eventRecursWhenResumed : Obligations.EventRecursWhenResumed := by
  intro s t h hnone hecall
  obtain ⟨-, -, hprecise⟩ := eventsArePrecise s t h
  obtain ⟨e, rfl⟩ : ∃ e, t = s.raise e := ⟨_, hprecise hnone hecall⟩
  have hresumed := singleStep_congr (s := s) (u := (s.raise e).startRun (s.raise e).pc)
    (V := fun t => { t with running := true }) ⟨rfl, rfl, rfl, rfl, rfl⟩ (fun _ _ _ _ => rfl)
  rw [hresumed, h]
  rfl

/-! ### The cycle counter (10_state.md R31) -/

/-- The state with `n` more cycles counted. -/
def State.addCycles (n : Nat) (s : State) : State := { s with cycles := s.cycles + n }

theorem State.afterStep_addCycles (n : Nat) (s : State) : (s.addCycles n).afterStep = s.afterStep.addCycles n := by
  have hcycles : s.cycles + n + 1 = s.cycles + 1 + n := Nat.add_right_comm _ _ _
  rcases afterStep_cases s with ⟨hfires, e⟩ | ⟨hquiet, e⟩ <;> rw [e, State.addCycles, State.addCycles, ← hcycles]
  · exact State.afterStep_fires _ hfires
  · exact State.afterStep_quiet _ hquiet

theorem State.writeReg_addCycles (n : Nat) (s : State) (r : Reg) (v : Word) :
    (s.addCycles n).writeReg r v = (s.writeReg r v).addCycles n := by
  by_cases hr : r = 0
  · rw [hr, State.writeReg_zero, State.writeReg_zero]
  · rw [State.writeReg, State.writeReg, if_neg hr, if_neg hr]
    rfl

theorem hostMove_addCycles (n : Nat) (m : HostMove) (s : State) :
    hostMove m (s.addCycles n) = mapNext (State.addCycles n) (hostMove m s) := by
  cases m with
  | writeReg k v =>
    rcases Nat.lt_or_ge k 32 with hk | hk
    · rw [hostMove_writeReg (Nat.le_of_lt_succ hk), hostMove_writeReg (Nat.le_of_lt_succ hk),
        State.writeReg_addCycles]
      rfl
    · rw [hostMove_writeReg_refused hk, hostMove_writeReg_refused hk]
      rfl
  | setPerm v p =>
    by_cases hv : translate s.pages v = none
    · rw [hostMove_setPerm_refused hv, hostMove_setPerm_refused (s := s.addCycles n) hv]
      rfl
    · rw [hostMove_setPerm hv, hostMove_setPerm (s := s.addCycles n) hv]
      rfl
  | writeByte a b =>
    by_cases hv : translate s.pages (vpnOf a) = none
    · rw [hostMove_writeByte_refused hv, hostMove_writeByte_refused (s := s.addCycles n) hv]
      rfl
    · rw [hostMove_writeByte hv, hostMove_writeByte (s := s.addCycles n) hv]
      rfl
  | _ => rfl

theorem hostStep_addCycles (n : Nat) (s : State) :
    hostStep (s.addCycles n) = mapNext (State.addCycles n) (hostStep s) := by
  cases hm : s.host with
  | nil =>
    rw [hostStep_of_noMove hm, hostStep_of_noMove (s := s.addCycles n) hm]
    rfl
  | cons m rest =>
    rw [hostStep_of_move hm, hostStep_of_move (s := s.addCycles n) hm]
    exact hostMove_addCycles n m { s with host := rest, event := .none }

theorem step_addCycles (n : Nat) (s : State) : step (s.addCycles n) = mapNext (State.addCycles n) (step s) := by
  cases hr : s.running with
  | true =>
    exact step_running_congr (u := s.addCycles n) hr hr ⟨rfl, rfl, rfl, rfl, rfl⟩ (fun _ _ _ _ => rfl)
      (State.afterStep_addCycles n)
  | false => rw [step_idle hr, step_idle (s := s.addCycles n) hr, hostStep_addCycles]

/-- Settles O42: in a turn of the run loop and in a move of the host. -/
theorem cyclesAffectsNothingElse : Obligations.CyclesAffectsNothingElse := fun s n => step_addCycles n s

end Sys2Proof.Machine
end

section
/-! The clock, the run and the host (60_exceptions.md R222 to R231). -/

namespace Sys2Proof.Machine

/-! ### One turn of the run loop (R223, R224) -/

/-- What a step of a run leaves, by whether the clock fires at the next counter value. -/
theorem step_running_clock {s t : State} (hr : s.running = true) (h : step s = .next t) :
    t.cycles = s.cycles + 1 ∧ t.config = s.config ∧
    ((Config.fires s.config (s.counter + 1) = true ∧ t.counter = 0 ∧ t.event = .clock ∧ t.running = false) ∨
      (Config.fires s.config (s.counter + 1) = false ∧ t.counter = s.counter + 1 ∧ t.event ≠ .clock ∧
        (t.running = false → t.event ≠ .none))) := by
  obtain ⟨u, hu, rfl⟩ := step_running_next hr h
  obtain ⟨hconfig, hcounter, hcycles, -, hrunning, -⟩ := singleStep_keeps hu
  rw [← hconfig, ← hcounter, ← hcycles]
  refine ⟨State.afterStep_cycles u, State.afterStep_config u, ?_⟩
  rcases afterStep_cases u with ⟨hfires, e⟩ | ⟨hquiet, e⟩ <;> rw [e]
  · exact .inl ⟨hfires, rfl, rfl, rfl⟩
  · refine .inr ⟨hquiet, rfl, singleStep_not_clock (t := u) hu, fun hstop => ?_⟩
    simpa [hrunning, hr] using hstop

/-- Settles O44: the run loop's two outcomes, the comparison spelt out by CLOCK_FIRE. -/
theorem runLoopTurn : Obligations.RunLoopTurn := by
  intro s t hr h fires
  obtain ⟨hconfig, hcounter, hcycles, -, hrunning, -⟩ := singleStep_keeps h
  have hiff : fires ↔ Config.fires t.config (t.counter + 1) = true := by
    rw [hconfig, hcounter, fires_iff]
  rw [step_running hr, runStep_of_next h, hiff, ← hcycles, ← hcounter]
  refine ⟨fun hf => by rw [State.afterStep_fires t hf], fun hf => ?_⟩
  rw [State.afterStep_quiet t (Bool.eq_false_iff.2 hf), hrunning, hr, Bool.true_and]

/-- Settles O45: where the clock does not fire, the counter after the step is still at most PERIOD. -/
theorem clockCountsEveryStep : Obligations.ClockCountsEveryStep := by
  intro s t hr h
  obtain ⟨hcycles, hconfig, ⟨-, hcounter, hevent, hstop⟩ | ⟨hquiet, hcounter, hevent, -⟩⟩ := step_running_clock hr h
  · exact ⟨hcycles, .inr ⟨hcounter, hevent, hstop⟩, fun _ => hcounter ▸ Nat.zero_le _, fun _ => rfl⟩
  · refine ⟨hcycles, .inl ⟨hcounter, hevent⟩, fun _ => ?_, fun _ => rfl⟩
    rw [hcounter, hconfig]
    exact le_period_of_not_fires hquiet

/-- The clock's part of a step of a run, as a function of the counter and the parameters before it (R226). -/
theorem step_running_clock_iff {s t : State} (hr : s.running = true) (h : step s = .next t) :
    (t.event = .clock ↔ Config.fires s.config (s.counter + 1) = true) ∧
    t.counter = if Config.fires s.config (s.counter + 1) then 0 else s.counter + 1 := by
  obtain ⟨-, -, ⟨hfires, hcounter, hevent, -⟩ | ⟨hquiet, hcounter, hevent, -⟩⟩ := step_running_clock hr h
  · simp [hfires, hcounter, hevent]
  · simp [hquiet, hcounter, hevent]

/-- Settles O46: both steps compute the same function of the same counter and parameters. -/
theorem preemptionIsDeterministic : Obligations.PreemptionIsDeterministic := by
  intro s t s' t' hs ht h h' hcounter hconfig
  obtain ⟨hclock, hcount⟩ := step_running_clock_iff hs h
  obtain ⟨hclock', hcount'⟩ := step_running_clock_iff ht h'
  rw [hcounter, hconfig] at hclock' hcount'
  exact ⟨hclock'.trans hclock.symm, hcount'.trans hcount.symm⟩

/-- Settles O49: the ECALL advances `pc`, and the run loop writes Clock over its event. -/
theorem clockSwallowsAnEcall : Obligations.ClockSwallowsAnEcall := by
  intro s hr hi hfires
  have hecall : singleStep s = .next (s.finish.raise .ecall) := singleStep_runs hi
  refine ⟨_, (step_running hr).trans (runStep_of_next hecall), ?_⟩
  rw [State.afterStep_fires (s.finish.raise .ecall) hfires]
  exact ⟨rfl, rfl, rfl, rfl, rfl, rfl⟩

/-! ### The run (R223, R226, R239) -/

theorem runTurns_succ_next {n : Nat} {s t : State} (hr : s.running = true) (h : step s = .next t) :
    runTurns (n + 1) s = runTurns n t := by
  rw [runTurns, if_pos hr, ← step_running hr, h]

theorem runTurns_succ_refused {n : Nat} {s : State} {r : Refusal} (hr : s.running = true) (h : step s = .refused r) :
    runTurns (n + 1) s = .refused r := by
  rw [runTurns, if_pos hr, ← step_running hr, h]

/-- A run with enough turns left for the clock to fire returns in them, or is refused. -/
theorem runTurns_returns {n : Nat} {s : State} (hr : s.running = true) (hpos : 1 ≤ n)
    (hn : s.config.period + 1 ≤ s.counter + n) :
    (∃ t, runTurns n s = .next t ∧ t.running = false ∧ t.event ≠ .none ∧
      s.cycles + 1 ≤ t.cycles ∧ t.cycles ≤ s.cycles + n) ∨
    runTurns n s = .refused .wordPastPageEnd := by
  induction n generalizing s with
  | zero => cases hpos
  | succ n ih =>
    rcases runningStepAnswersOrIsPastPageEnd s hr with ⟨u, hu⟩ | hrefused
    · rw [runTurns_succ_next hr hu]
      obtain ⟨hcycles, hconfig, hclock⟩ := step_running_clock hr hu
      cases hur : u.running with
      | false =>
        have hevent : u.event ≠ .none := by
          rcases hclock with ⟨-, -, hev, -⟩ | ⟨-, -, -, hstop⟩
          · simp [hev]
          · exact hstop hur
        exact .inl ⟨u, runTurns_idle n hur, hur, hevent, hcycles.ge, by omega⟩
      | true =>
        rcases hclock with ⟨-, -, -, hstop⟩ | ⟨hquiet, hcounter, -, -⟩
        · rw [hur] at hstop
          cases hstop
        · have hle := le_period_of_not_fires hquiet
          refine (ih hur (by omega) (by rw [hconfig]; omega)).imp_left ?_
          rintro ⟨t, ht, htr, hev, hlo, hhi⟩
          exact ⟨t, ht, htr, hev, by omega, by omega⟩
    · exact .inr (runTurns_succ_refused hr hrefused)

/-- Settles O47: the counter starts at 0 or above, so it passes PERIOD within PERIOD + 1 turns. -/
theorem everyRunReturnsWithinPeriod : Obligations.EveryRunReturnsWithinPeriod := fun entry s =>
  runTurns_returns (s := s.startRun entry) rfl (Nat.le_add_left _ _) (Nat.le_add_left _ _)

/-- With no move of the host to make, steps of the machine are turns of the run loop, idle ones after its return. -/
theorem core_run_eq_runTurns (n : Nat) {s : State} (hh : s.host = []) :
    Host.Core.run Sys2Proof.core n s = runTurns n s := by
  induction n generalizing s with
  | zero => rfl
  | succ n ih =>
    cases hr : s.running with
    | false =>
      have hidle : step s = .next s := (step_idle hr).trans (hostStep_of_noMove hh)
      rw [core_run_next n hidle, ih hh, runTurns_idle n hr, runTurns_idle (n + 1) hr]
    | true =>
      rcases runningStepAnswersOrIsPastPageEnd s hr with ⟨t, ht⟩ | hrefused
      · obtain ⟨-, -, hhost⟩ := runningStepKeepsTranslation s t hr ht
        rw [core_run_next n ht, runTurns_succ_next hr ht, ih (hhost.trans hh)]
      · exact (core_run_refused n hrefused).trans (runTurns_succ_refused hr hrefused).symm

/-- Settles O48: `run` is PERIOD + 1 turns of the run loop. -/
theorem runIsRepeatedSteps : Obligations.RunIsRepeatedSteps := fun _ _ hh => core_run_eq_runTurns _ hh

/-! ### The host's moves (R231, R239) -/

/-- The step in which the host makes a move: the move is off its list and the event of the run before is gone. -/
theorem step_hostMove {s : State} (hr : s.running = false) (m : HostMove) (rest : List HostMove) :
    step { s with host := m :: rest } = hostMove m { s with host := rest, event := .none } :=
  (step_idle (s := { s with host := m :: rest }) hr).trans (hostStep_of_move rfl)

/-- Settles O53: the step is the host's, which has no move to make. -/
theorem idleEngineKeepsItsState : Obligations.IdleEngineKeepsItsState := fun _ hr hh =>
  (step_idle hr).trans (hostStep_of_noMove hh)

/-- A removed page takes no other page's bytes with it. -/
theorem byteAt_removePage_other {s : State} {v : Vpn} {a : Word} (h : vpnOf a ≠ v) :
    (s.removePage v).byteAt a = s.byteAt a := by
  have hdiv : a.toNat / 4096 ≠ v.toNat := fun e => h (BitVec.eq_of_toNat_eq ((vpnOf_toNat a).trans e))
  rw [State.byteAt, State.byteAt, State.removePage_pages, State.removePage_mem, translate_remove_other _ _ _ h,
    Memory.read_clearPage, if_neg hdiv]

/-- Settles O51: the rule of each move, with its next state's page table, or its refusal. -/
theorem hostMovesBetweenRuns : Obligations.HostMovesBetweenRuns := by
  intro s rest hr u
  have hstep (m : HostMove) : step { s with host := m :: rest } = hostMove m u := step_hostMove hr m rest
  simp only [hstep]
  exact ⟨fun _ => rfl, fun _ v hn => hostMove_writeReg hn v u, fun _ v hn => hostMove_writeReg_refused hn v u,
    fun _ => rfl,
    fun vpn perm _ => ⟨rfl, rfl, translate_insert_same _ vpn perm, fun v => translate_insert_other _ v vpn perm⟩,
    fun vpn => ⟨rfl, rfl, translate_remove_same _ vpn, fun v => translate_remove_other _ v vpn,
      fun _ ha => byteAt_removePage_other (s := u) ha⟩,
    fun vpn perm hv => ⟨hostMove_setPerm (s := u) hv perm, translate_insert_same _ vpn perm,
      fun v => translate_insert_other _ v vpn perm⟩,
    fun _ perm hv => hostMove_setPerm_refused (s := u) hv perm,
    fun _ b hv => hostMove_writeByte (s := u) hv b, fun _ b hv => hostMove_writeByte_refused (s := u) hv b⟩

/-- The bytes after a page is inserted: in the page the host's, with 0 past the end of what the host gave (R54); the
others as they were. -/
theorem read_insertPage {s : State} (v : Vpn) (p : Perm) (bs : List Byte) (x : Nat) (hwf : Memory.wf s.mem) :
    (s.insertPage v p bs).mem.read x = if x / 4096 = v.toNat then bs.getD (x % 4096) 0 else s.mem.read x := by
  have hv := v.isLt
  have hlen : (bs.take 4096).length = min 4096 bs.length := List.length_take
  rw [State.insertPage_mem, Memory.read_writeBytes _ _ _ _ (by rw [pageBase]; omega) (Memory.clearPage_wf _ v hwf),
    Memory.read_clearPage, pageBase]
  by_cases hpage : x / 4096 = v.toNat
  · rw [if_pos hpage, if_pos hpage]
    by_cases hgiven : x % 4096 < bs.length
    · rw [if_pos (by omega), show x - 4096 * v.toNat = x % 4096 by omega, List.getD_eq_getElem?_getD,
        List.getElem?_take_of_lt (Nat.mod_lt _ (by decide)), List.getD_eq_getElem?_getD]
    · rw [if_neg (by omega), List.getD_eq_default _ _ (by omega), unlistedByte]
  · rw [if_neg (by omega), if_neg hpage, if_neg hpage]

/-- Settles O52: by whether the address lies in the inserted page. -/
theorem insertedPageHoldsItsBytes : Obligations.InsertedPageHoldsItsBytes := by
  intro s vpn perm bytes a hwf
  rw [State.byteAt, State.byteAt, read_insertPage _ _ _ _ hwf, ← vpnOf_toNat, vpoOf_toNat]
  by_cases ha : vpnOf a = vpn
  · rw [if_pos ha, ha, State.insertPage_pages, translate_insert_same]
    simp only [if_true, Option.map_some]
  · have hne : (vpnOf a).toNat ≠ vpn.toNat := fun e => ha (BitVec.eq_of_toNat_eq e)
    simp only [if_neg ha, if_neg hne, State.insertPage_pages, translate_insert_other _ _ _ _ ha]

/-! ### Reset (10_state.md R38) -/

/-- Settles O55: each value is the field as it was built. -/
theorem resetValues : Obligations.ResetValues :=
  ⟨fun _ => ⟨rfl, rfl, rfl, rfl, rfl⟩, rfl, rfl, rfl, rfl, rfl⟩

end Sys2Proof.Machine
end
